-- ==== Sys2Proof/Word.lean ====
section
/-! DEFINITION. The fixed-width words and register indices of the block (spec 00_scope.md rule R5). The registers whose
width is an OPEN parameter (W, KW) hold plain natural numbers: see Machine/State.lean and assumption log 2. -/

namespace Sys2Proof

/-- A command word (30_encoding.md rule R60): 16 bits. -/
abbrev CmdWord := BitVec 16

/-- A register selector of the host port (20_memory.md rule R40): 8 bits. -/
abbrev Selector := BitVec 8

/-- The value of the status register (10_state.md rule R17): 8 bits. -/
abbrev StatusWord := BitVec 8

/-- A 4-bit field of a command word (30_encoding.md rule R61). -/
abbrev Nibble := BitVec 4

/-- The index of a field register F0..F7 (10_state.md rule R12). -/
abbrev FIdx := Fin 8

/-- The index of a point register PT0..PT3 (10_state.md rule R13). -/
abbrev PIdx := Fin 4

end Sys2Proof
end

