-- ==== Sys2Proof/Syntax.lean ====
section
/-! DEFINITION. The command set: one constructor per row of spec/opcode_table.json (30_encoding.md rule R63). -/

namespace Sys2Proof

/-- The nine commands with their register operands, destination first (30_encoding.md rules R62, R63). The implicit
operands CA, CB, CP and K are no fields of a command (rule R61). -/
inductive Instr where
  /-- 40_montgomery_mult.md rule R81. -/
  | montmul (fd fs1 fs2 : FIdx)
  /-- 41_modular_adder_subtracter.md rule R92. -/
  | modadd (fd fs1 fs2 : FIdx)
  /-- 41_modular_adder_subtracter.md rule R93. -/
  | modsub (fd fs1 fs2 : FIdx)
  /-- 43_ecc_point_adder.md rule R112. -/
  | padd (pd ps1 ps2 : PIdx)
  /-- 44_ecc_point_doubler.md rule R122. -/
  | pdbl (pd ps1 : PIdx)
  /-- 45_ecc_scalar_multiplier_dbl_add.md rule R131. -/
  | smulda (pd ps1 : PIdx)
  /-- 46_ecc_scalar_multiplier_mont_ladder.md rule R141. -/
  | smulml (pd ps1 : PIdx)
  /-- 42_on_curve_check.md rule R102. -/
  | pchk (ps1 : PIdx)
  /-- 47_system_commands.md rule R150. -/
  | clrerr
  deriving DecidableEq, Repr

end Sys2Proof
end

