-- ==== Sys2Proof/WellFormed.lean ====
section
/-! DEFINITION. Which field quadruples of format C are legal commands (30_encoding.md rules R61 to R64). The registers of an
`Instr` are bounded by their types, so the checks are made where an ill-formed command can be written: on the four fields. -/

namespace Sys2Proof

/-- The four 4-bit fields of a command word (30_encoding.md rule R61). -/
structure Fields where
  op : Nibble
  rd : Nibble
  rs1 : Nibble
  rs2 : Nibble
  deriving DecidableEq, Repr

/-- What the operation code makes of one of the fields rd, rs1, rs2 (30_encoding.md rule R62). -/
inductive FieldUse where
  /-- it names a field register: 0 to 7 -/
  | fieldReg
  /-- it names a point register: 0 to 3 -/
  | pointReg
  /-- it is not used: 0 -/
  | unused
  deriving DecidableEq, Repr

/-- The check a field's use asks for (30_encoding.md rule R62). -/
def FieldUse.admits : FieldUse → Nibble → Bool
  | .fieldReg, v => decide (v.toNat ≤ 7)
  | .pointReg, v => decide (v.toNat ≤ 3)
  | .unused, v => decide (v.toNat = 0)

/-- The uses of rd, rs1 and rs2 under an operation code; `none` where the code is illegal (30_encoding.md rules R63, R64). -/
def fieldUses (op : Nibble) : Option (FieldUse × FieldUse × FieldUse) :=
  match op.toNat with
  | 1 | 2 | 3 => some (.fieldReg, .fieldReg, .fieldReg)
  | 4 => some (.pointReg, .pointReg, .pointReg)
  | 5 | 6 | 7 => some (.pointReg, .pointReg, .unused)
  | 8 => some (.unused, .pointReg, .unused)
  | 9 => some (.unused, .unused, .unused)
  | _ => none

/-- A field quadruple is well formed when its operation code is legal and every field is what the code asks for: the
column "legal when" of 30_encoding.md rule R63. -/
def Fields.wellFormed (c : Fields) : Bool :=
  match fieldUses c.op with
  | some (d, a, b) => d.admits c.rd && a.admits c.rs1 && b.admits c.rs2
  | none => false

/-- The fields of a command in format C (30_encoding.md rules R61, R63). -/
def Instr.fields : Instr → Fields
  | .montmul d a b => ⟨1, BitVec.ofNat 4 d, BitVec.ofNat 4 a, BitVec.ofNat 4 b⟩
  | .modadd d a b => ⟨2, BitVec.ofNat 4 d, BitVec.ofNat 4 a, BitVec.ofNat 4 b⟩
  | .modsub d a b => ⟨3, BitVec.ofNat 4 d, BitVec.ofNat 4 a, BitVec.ofNat 4 b⟩
  | .padd d a b => ⟨4, BitVec.ofNat 4 d, BitVec.ofNat 4 a, BitVec.ofNat 4 b⟩
  | .pdbl d a => ⟨5, BitVec.ofNat 4 d, BitVec.ofNat 4 a, 0⟩
  | .smulda d a => ⟨6, BitVec.ofNat 4 d, BitVec.ofNat 4 a, 0⟩
  | .smulml d a => ⟨7, BitVec.ofNat 4 d, BitVec.ofNat 4 a, 0⟩
  | .pchk a => ⟨8, 0, BitVec.ofNat 4 a, 0⟩
  | .clrerr => ⟨9, 0, 0, 0⟩

/-- A command is well formed when its fields are. -/
def Instr.wellFormed (i : Instr) : Bool := i.fields.wellFormed

end Sys2Proof
end

