-- ==== Sys2Proof/Decode.lean ====
section
/-! DEFINITION. Decoding a 16-bit command word (30_encoding.md rules R60 to R65), total, an illegal word rejected by name;
then the encoder, and the opcode table's match and mask columns. -/

namespace Sys2Proof

/-- Why a word is no legal command (30_encoding.md rule R64). All of them complete with IllegalCommand. -/
inductive DecodeError where
  /-- the operation code is 0x0 or 0xA to 0xF -/
  | illegalOp
  /-- a used register index is out of range -/
  | indexOutOfRange
  /-- a field the command does not use is not 0 -/
  | unusedFieldNotZero
  deriving DecidableEq, Repr

/-- The fields of a word: bits 15:12, 11:8, 7:4, 3:0 (30_encoding.md rule R61). -/
def wordFields (w : CmdWord) : Fields where
  op := w.extractLsb' 12 4
  rd := w.extractLsb' 8 4
  rs1 := w.extractLsb' 4 4
  rs2 := w.extractLsb' 0 4

/-- A field register index: 0 to 7 (30_encoding.md rule R62). -/
def fieldIndex (v : Nibble) : Except DecodeError FIdx :=
  if h : v.toNat < 8 then .ok ⟨v.toNat, h⟩ else .error .indexOutOfRange

/-- A point register index: 0 to 3 (30_encoding.md rule R62). -/
def pointIndex (v : Nibble) : Except DecodeError PIdx :=
  if h : v.toNat < 4 then .ok ⟨v.toNat, h⟩ else .error .indexOutOfRange

/-- A field that must be 0 (30_encoding.md rule R62). -/
def mustBeZero (v : Nibble) : Except DecodeError Unit :=
  if v.toNat = 0 then .ok () else .error .unusedFieldNotZero

/-- Three field register operands (MONTMUL, MODADD, MODSUB). -/
def decodeFFF (mk : FIdx → FIdx → FIdx → Instr) (c : Fields) : Except DecodeError Instr := do
  let d ← fieldIndex c.rd
  let a ← fieldIndex c.rs1
  let b ← fieldIndex c.rs2
  return mk d a b

/-- Three point register operands (PADD). -/
def decodePPP (mk : PIdx → PIdx → PIdx → Instr) (c : Fields) : Except DecodeError Instr := do
  let d ← pointIndex c.rd
  let a ← pointIndex c.rs1
  let b ← pointIndex c.rs2
  return mk d a b

/-- A destination and one source, rs2 = 0 (PDBL, SMULDA, SMULML). -/
def decodePP (mk : PIdx → PIdx → Instr) (c : Fields) : Except DecodeError Instr := do
  let d ← pointIndex c.rd
  let a ← pointIndex c.rs1
  mustBeZero c.rs2
  return mk d a

/-- One source, rd = 0 and rs2 = 0 (PCHK). -/
def decodeP (mk : PIdx → Instr) (c : Fields) : Except DecodeError Instr := do
  mustBeZero c.rd
  let a ← pointIndex c.rs1
  mustBeZero c.rs2
  return mk a

/-- No operand: all three fields 0 (CLRERR). -/
def decodeNone (i : Instr) (c : Fields) : Except DecodeError Instr := do
  mustBeZero c.rd
  mustBeZero c.rs1
  mustBeZero c.rs2
  return i

/-- The command a field quadruple stands for (30_encoding.md rule R63), or why it is illegal (rule R64). -/
def decodeFields (c : Fields) : Except DecodeError Instr :=
  match c.op.toNat with
  | 1 => decodeFFF .montmul c
  | 2 => decodeFFF .modadd c
  | 3 => decodeFFF .modsub c
  | 4 => decodePPP .padd c
  | 5 => decodePP .pdbl c
  | 6 => decodePP .smulda c
  | 7 => decodePP .smulml c
  | 8 => decodeP .pchk c
  | 9 => decodeNone .clrerr c
  | _ => .error .illegalOp

/-- Decoding is total and reads no state (30_encoding.md rule R65). -/
def decode (w : CmdWord) : Except DecodeError Instr := decodeFields (wordFields w)

/-- The word of a field quadruple: `(op << 12) | (rd << 8) | (rs1 << 4) | rs2` (30_encoding.md rule R67). -/
def Fields.toWord (c : Fields) : CmdWord :=
  (c.op.setWidth 16 <<< 12) ||| (c.rd.setWidth 16 <<< 8) ||| (c.rs1.setWidth 16 <<< 4) ||| c.rs2.setWidth 16

/-- The word of a command (30_encoding.md rules R63, R67). -/
def encode (i : Instr) : CmdWord := i.fields.toWord

/-- One row of the opcode table: a word `w` selects it when `w AND mask = match` (30_encoding.md rule R63). -/
structure OpcodeRow where
  mnemonic : String
  pattern : CmdWord
  mask : CmdWord
  deriving DecidableEq, Repr

/-- Does the word select the row (30_encoding.md rule R63)? -/
def OpcodeRow.selects (r : OpcodeRow) (w : CmdWord) : Bool := w &&& r.mask == r.pattern

/-- The columns mnemonic, match and mask of 30_encoding.md rule R63 (spec/opcode_table.json). -/
def opcodeTable : List OpcodeRow :=
  [ ⟨"MONTMUL", 0x1000, 0xF888⟩
  , ⟨"MODADD", 0x2000, 0xF888⟩
  , ⟨"MODSUB", 0x3000, 0xF888⟩
  , ⟨"PADD", 0x4000, 0xFCCC⟩
  , ⟨"PDBL", 0x5000, 0xFCCF⟩
  , ⟨"SMULDA", 0x6000, 0xFCCF⟩
  , ⟨"SMULML", 0x7000, 0xFCCF⟩
  , ⟨"PCHK", 0x8000, 0xFFCF⟩
  , ⟨"CLRERR", 0x9000, 0xFFFF⟩ ]

/-- The row a command belongs to: its position in `opcodeTable`. -/
def Instr.row : Instr → Fin 9
  | .montmul .. => 0
  | .modadd .. => 1
  | .modsub .. => 2
  | .padd .. => 3
  | .pdbl .. => 4
  | .smulda .. => 5
  | .smulml .. => 6
  | .pchk .. => 7
  | .clrerr => 8

/-- The host's view of the decoder: a command is one 16-bit word whose bits the table numbers as the block does, bit 0 the
least significant; bits of `w` at and above `nbits` are no part of the word. -/
def decodeTableWord (nbits w : Nat) : Option Instr :=
  match decode (BitVec.ofNat 16 (w % 2 ^ nbits)) with
  | .ok i => some i
  | .error _ => none

end Sys2Proof
end

