-- ==== Sys2Proof/Config.lean ====
section
/-! DEFINITION. What an instance of the block fixes (the OPEN widths W and KW) and the free values: what the spec calls
unspecified and a model treats as `any value` (93_implementation_defined.md part 1b). -/

namespace Sys2Proof.Config

/-- The OPEN widths of one instance: `W`, the width of a field element register (00_scope.md rule R3), and `KW`, the width
of the scalar register (rule R4). Held as data, so that every statement about every state is a statement about every
width (assumption log 1). -/
structure Geometry where
  W : Nat
  KW : Nat
  deriving DecidableEq, Repr

/-- The port data width, `max(W, KW, 16)` (00_scope.md rule R5). -/
def Geometry.PW (g : Geometry) : Nat := max g.W (max g.KW 16)

/-- What rules R3 and R4 of 00_scope.md require of the widths. -/
abbrev Geometry.Valid (g : Geometry) : Prop := 2 ≤ g.W ∧ 1 ≤ g.KW

/-- DESIGN CHOICE (log 1, unsafe for a claim about `State.reset` alone): the widths of the instance that
`Machine.State.reset` describes, those of most rows of 95_test_vectors.md. -/
def resetGeometry : Geometry := ⟨8, 8⟩

/-- The `n`-th free number; cut to the width of the register that takes it. No body: nothing is known of it (log 4). -/
opaque freeNumber : Nat → Nat

/-- The `n`-th free bit (log 4). -/
opaque freeBit : Nat → Bool

/-- The `n`-th free completion code, one of 0 to 3 (93_implementation_defined.md U2, U3; log 4, log 6). -/
opaque freeCode : Nat → Fin 4

end Sys2Proof.Config
end

