-- ==== Sys2Proof/Machine/State.lean ====
section
/-! DEFINITION. The state of the block (10_state.md rule R10), the stream of host events that drives it (rule R16,
20_memory.md rule R41), the reasons a step can stop, and the state after reset (rule R21). Plain data throughout. -/

namespace Sys2Proof.Machine

/-- A point value: the source's sum type, never a sentinel pair of coordinates (10_state.md rule R13). -/
inductive Point where
  | infinity
  | affine (x y : Nat)
  deriving DecidableEq, Repr

/-- The four errors of the block (60_exceptions.md rule R180). -/
inductive ErrorKind where
  | notOnCurve
  | equalPoints
  | undefinedInverse
  | illegalCommand
  deriving DecidableEq, Repr

/-- A point register: the flag INF and the coordinate fields X and Y (10_state.md rule R13). -/
structure PointReg where
  inf : Bool
  x : Nat
  y : Nat
  deriving DecidableEq, Repr

/-- The registers and register fields that a selector can name (20_memory.md rule R42). -/
inductive Sel where
  | cmd
  | status
  | ca
  | cb
  | cp
  | k
  | f (i : FIdx)
  | ptX (n : PIdx)
  | ptY (n : PIdx)
  | ptInf (n : PIdx)
  deriving DecidableEq, Repr

/-- What reaches the block from outside: the two transactions of the host port (20_memory.md rule R41) and the reset event
(70_reset_and_hazards.md rule R200; log 12). The value of a WR is a PW-bit number (log 16). -/
inductive HostEvent where
  | wr (sel : Selector) (v : Nat)
  | rd (sel : Selector)
  | reset
  deriving DecidableEq, Repr

/-- Why a step could stop with a fault: NOTHING DOES, the block has no stuck state and its errors are completion codes
(70_reset_and_hazards.md rule R222, 60_exceptions.md rule R183). The type has no constructor (log 20, safe). -/
inductive Fault where
  deriving DecidableEq, Repr

/-- Why a step could refuse: only that an instruction has no meaning yet. Raised by a refused arm of `exec` alone, and no
arm of `exec` is refused (log 20, safe). -/
inductive Refusal where
  /-- raised by an arm of `exec` whose command has no meaning yet; safe -/
  | notModelled (mnemonic : String)
  deriving DecidableEq, Repr

/-- The state. The registers of the OPEN widths W and KW are natural numbers, as the spec writes them ("Every register
value is an unsigned integer", 00_scope.md section 6); `State.Wf` (Sys2Proof/Safety.lean) says each is below 2 to its
width, and every step keeps that (log 2). -/
structure State where
  /-- the widths W and KW of this instance (00_scope.md rules R3, R4; log 1) -/
  geom : Config.Geometry
  /-- curve coefficient a (10_state.md rule R11), W bits -/
  ca : Nat
  /-- curve coefficient b (rule R11), W bits -/
  cb : Nat
  /-- field prime p (rule R11), W bits -/
  cp : Nat
  /-- field registers F0..F7 (rule R12), W bits each -/
  f : Vector Nat 8
  /-- point registers PT0..PT3 (rule R13) -/
  pt : Vector PointReg 4
  /-- scalar (rule R15), KW bits -/
  k : Nat
  /-- status register (rule R17) -/
  status : StatusWord
  /-- host side: the events still to come, next first (rule R16; log 10) -/
  pending : List HostEvent
  /-- host side: the index of the next event in the host's list (rule R16; log 10) -/
  pc : Nat
  /-- host side: the values that RD transactions returned, newest first (20_memory.md rule R41; log 11) -/
  responses : List Nat
  /-- the model's own: how many free values have been used (log 4) -/
  fresh : Nat
  deriving DecidableEq, Repr

/-- The state after reset of an instance of given widths (10_state.md rule R21): STATUS is 0x00 by the rule; every other
register is unspecified there and 0 here (DESIGN CHOICE, log 3, unsafe); no event is pending (log 10). -/
def State.resetOf (g : Config.Geometry) : State where
  geom := g
  ca := 0
  cb := 0
  cp := 0
  f := Vector.replicate 8 0
  pt := Vector.replicate 4 ⟨false, 0, 0⟩
  k := 0
  status := 0
  pending := []
  pc := 0
  responses := []
  fresh := 0

/-- The machine right after reset (10_state.md rule R21), of the widths `Config.resetGeometry` (log 1). -/
def State.reset : State := State.resetOf Config.resetGeometry

end Sys2Proof.Machine
end

