-- ==== Sys2Proof/Machine/Flags.lean ====
section
/-! DEFINITION. The fields of STATUS and the ways they are written (10_state.md rules R17, R18). -/

namespace Sys2Proof.Machine

/-- STATUS.ERR, bits 2:0: the completion code of the most recent command (10_state.md rule R17). -/
def statusErr (st : StatusWord) : BitVec 3 := st.extractLsb' 0 3

/-- STATUS.STICKY, bit 3 (10_state.md rule R17). -/
def statusSticky (st : StatusWord) : Bool := st.getLsbD 3

/-- STATUS.ONC, bit 4 (10_state.md rule R17). -/
def statusOnc (st : StatusWord) : Bool := st.getLsbD 4

/-- STATUS[7:5], reserved (10_state.md rule R17). -/
def statusReserved (st : StatusWord) : BitVec 3 := st.extractLsb' 5 3

/-- Write ERR, keep the other bits. -/
def statusWithErr (st : StatusWord) (c : BitVec 3) : StatusWord := (st &&& 0xF8#8) ||| c.setWidth 8

/-- Write STICKY, keep the other bits. -/
def statusWithSticky (st : StatusWord) (b : Bool) : StatusWord := if b then st ||| 0x08#8 else st &&& 0xF7#8

/-- Write ONC, keep the other bits. -/
def statusWithOnc (st : StatusWord) (b : Bool) : StatusWord := if b then st ||| 0x10#8 else st &&& 0xEF#8

/-- The numeric code of an error (60_exceptions.md rule R180). -/
def ErrorKind.code : ErrorKind → BitVec 3
  | .notOnCurve => 1
  | .equalPoints => 2
  | .undefinedInverse => 3
  | .illegalCommand => 4

/-- The error that a completion code from 0 to 3 stands for; 0 is no error (60_exceptions.md rule R180). Used for the free
completion code of a point command outside `ParamCurve` (93_implementation_defined.md U2, U3). -/
def errorOfCode (c : Fin 4) : Option ErrorKind :=
  match c with
  | 0 => none
  | 1 => some .notOnCurve
  | 2 => some .equalPoints
  | 3 => some .undefinedInverse

/-- STATUS after a normal completion: ERR <- 0, STICKY and ONC kept (60_exceptions.md rule R182). -/
def statusAfterOk (st : StatusWord) : StatusWord := statusWithErr st 0

/-- STATUS after an error completion: ERR <- code, STICKY <- 1, ONC kept (60_exceptions.md rule R183). -/
def statusAfterError (st : StatusWord) (e : ErrorKind) : StatusWord :=
  statusWithSticky (statusWithErr st e.code) true

end Sys2Proof.Machine
end

