-- ==== Sys2Proof/Machine/Field.lean ====
section
/-! DEFINITION. The field primitives (00_scope.md rules R6 to R8), the Montgomery product (40_montgomery_mult.md rule R80),
and the test for an odd prime that the precondition `ParamCurve` names (10_state.md section 2). -/

namespace Sys2Proof.Machine

/-- `z mod p` for an integer, possibly negative: the unique r with 0 <= r < p and p dividing z - r (00_scope.md section 6).
The formulas of the point units are computed exactly on integers and reduced once (00_scope.md "Shorthand"). -/
def modp (z : Int) (p : Nat) : Nat := (z % (p : Int)).toNat

/-- `addm` (00_scope.md rule R6). -/
def addm (u v p : Nat) : Nat := (u + v) % p

/-- `subm` (00_scope.md rule R6). -/
def subm (u v p : Nat) : Nat := modp ((u : Int) - v) p

/-- `mulm` (00_scope.md rule R6). -/
def mulm (u v p : Nat) : Nat := u * v % p

/-- `b ^ e mod p` by repeated squaring, for an exponent of at most `n` bits. -/
def powmBits (p : Nat) : Nat → Nat → Nat → Nat
  | 0, _, _ => 1 % p
  | n + 1, b, e =>
    if e % 2 = 1 then b * powmBits p n (b * b % p) (e / 2) % p else powmBits p n (b * b % p) (e / 2)

/-- `numBits(k)`, the bit length (00_scope.md rule R8). -/
def numBits (k : Nat) : Nat := if k = 0 then 0 else k.log2 + 1

/-- `bit(k, i)`, the bit test (00_scope.md rule R8). -/
def bit (k i : Nat) : Bool := k / 2 ^ i % 2 == 1

/-- `b ^ e mod p`. -/
def powm (b e p : Nat) : Nat := powmBits p (numBits e) (b % p) e

/-- `invm(v, p)` (00_scope.md rule R7): an error at 0; otherwise the inverse, computed as `v^(p-2) mod p`, which rule R7
says it equals for a prime p (log 14). Only called under `ParamCurve`, where p is an odd prime. -/
def invm (v p : Nat) : Except ErrorKind Nat :=
  if v = 0 then .error .undefinedInverse else .ok (powm v (p - 2) p)

/-- The inverse of 2^W modulo an odd p: (p+1)/2 is the inverse of 2 (log 15). -/
def montRinv (W p : Nat) : Nat := powm ((p + 1) / 2) W p

/-- The Montgomery product `montmul(u, v, p)` = (u · v · Rinv) mod p with radix R = 2^W (40_montgomery_mult.md rule R80). -/
def montmul (W u v p : Nat) : Nat := u * v * montRinv W p % p

/-- No odd `d` from `d` on with `d * d <= p` divides `p`, looking at no more than `n` of them. -/
def noOddDivisor (p : Nat) : Nat → Nat → Bool
  | 0, _ => true
  | n + 1, d => if p < d * d then true else p % d != 0 && noOddDivisor p n (d + 2)

/-- Trial division by the odd numbers from 3. -/
def trialOddPrime (p : Nat) : Bool := 3 ≤ p && p % 2 == 1 && noOddDivisor p p 3

/-- The prime 2^32 - 5 of the test curve E3 (95_test_vectors.md section 0). -/
def primeE3 : Nat := 0xFFFFFFFB

/-- The prime 2^256 - 2^32 - 977 of the test curve E4 (95_test_vectors.md section 0). -/
def primeE4 : Nat := 0xFFFFFFFFFFFFFFFFFFFFFFFFFFFFFFFFFFFFFFFFFFFFFFFFFFFFFFFEFFFFFC2F

/-- Is `p` an odd prime? Trial division, with two large primes answered at once so that the spec's vectors over them can be
evaluated. `Laws.oddPrime_iff` proves that it is primality and oddness for every p (log 13). -/
def oddPrime (p : Nat) : Bool := p == primeE3 || p == primeE4 || trialOddPrime p

end Sys2Proof.Machine
end

