-- ==== Sys2Proof/Machine/Operands.lean ====
section
/-! DEFINITION. The operand forms: registers by index (30_encoding.md rule R62), point values (10_state.md rule R13),
selectors (20_memory.md rule R42), and the preconditions `ParamField`, `ParamMont`, `ParamCurve` (10_state.md section 2). -/

namespace Sys2Proof.Machine

/-- The point value of a point register: `Infinity` when INF = 1, whatever X and Y hold (10_state.md rule R13). -/
def PointReg.value (r : PointReg) : Point := if r.inf then .infinity else .affine r.x r.y

/-- `F[i]` (10_state.md rule R12). -/
def State.readF (s : State) (i : FIdx) : Nat := s.f[i]

/-- `PT[n]` as a point value (10_state.md rule R13). -/
def State.readPt (s : State) (n : PIdx) : Point := (s.pt[n]).value

/-- A point's coordinates, if it has any, are below p. -/
def Point.reduced (p : Nat) : Point → Bool
  | .infinity => true
  | .affine x y => decide (x < p) && decide (y < p)

/-- `ParamField` for two field operands: CP >= 1 and both reduced (10_state.md section 2). -/
abbrev ParamField (p u v : Nat) : Prop := 1 ≤ p ∧ u < p ∧ v < p

/-- `ParamMont`: `ParamField` and CP odd (10_state.md section 2). -/
abbrev ParamMont (p u v : Nat) : Prop := ParamField p u v ∧ p % 2 = 1

/-- `ParamCurve` for PCHK and PDBL: CP an odd prime, CA and CB below CP, the operand reduced (10_state.md section 2). -/
abbrev ParamCurve (a b p : Nat) (P : Point) : Prop := oddPrime p = true ∧ a < p ∧ b < p ∧ P.reduced p = true

/-- `ParamCurve` for PADD, which reads neither CA nor CB: CP an odd prime, both operands reduced (10_state.md section 2). -/
abbrev ParamAdd (p : Nat) (P Q : Point) : Prop := oddPrime p = true ∧ P.reduced p = true ∧ Q.reduced p = true

/-- `ParamCurve` for SMULDA and SMULML. With K = 0 the point is not examined at all ("whatever PT[ps1] holds",
45_ecc_scalar_multiplier_dbl_add.md rule R131), so it need not be reduced (log 8). -/
abbrev ParamScalar (a b p k : Nat) (P : Point) : Prop :=
  oddPrime p = true ∧ a < p ∧ b < p ∧ (P.reduced p = true ∨ k = 0)

/-- The register a selector names; `none` for a reserved selector (20_memory.md rule R42). -/
def decodeSel (v : Selector) : Option Sel :=
  let n := v.toNat
  if n < 0x06 then
    match n with
    | 0 => some .cmd
    | 1 => some .status
    | 2 => some .ca
    | 3 => some .cb
    | 4 => some .cp
    | _ => some .k
  else if h : 0x10 ≤ n ∧ n < 0x18 then some (.f ⟨n - 0x10, by omega⟩)
  else if h : 0x20 ≤ n ∧ n < 0x30 then
    let i : PIdx := ⟨(n - 0x20) / 4, by omega⟩
    match n % 4 with
    | 0 => some (.ptX i)
    | 1 => some (.ptY i)
    | 2 => some (.ptInf i)
    | _ => none
  else none

/-- The selector of a register or register field (20_memory.md rule R42). -/
def encodeSel : Sel → Selector
  | .cmd => 0x00
  | .status => 0x01
  | .ca => 0x02
  | .cb => 0x03
  | .cp => 0x04
  | .k => 0x05
  | .f i => BitVec.ofNat 8 (0x10 + i)
  | .ptX n => BitVec.ofNat 8 (0x20 + 4 * n)
  | .ptY n => BitVec.ofNat 8 (0x21 + 4 * n)
  | .ptInf n => BitVec.ofNat 8 (0x22 + 4 * n)

/-- The width of what a selector names (20_memory.md rule R42). -/
def Sel.width (g : Config.Geometry) : Sel → Nat
  | .cmd => 16
  | .status => 8
  | .ca | .cb | .cp => g.W
  | .k => g.KW
  | .f _ => g.W
  | .ptX _ | .ptY _ => g.W
  | .ptInf _ => 1

/-- Is the selector read/write (20_memory.md rule R42)? CMD is write-only and STATUS read-only. -/
def Sel.isReadWrite : Sel → Bool
  | .cmd | .status => false
  | _ => true

end Sys2Proof.Machine
end

