-- ==== Sys2Proof/Machine/Ops.lean ====
section
/-! DEFINITION. The shared operations: writing one register, the two ways a command completes (60_exceptions.md rules R182,
R183), the free values, the two port transactions on registers (20_memory.md rules R43, R45), and the reset event
(70_reset_and_hazards.md rule R200). -/

namespace Sys2Proof.Machine

/-! ### One register, one write -/

/-- `CA <- v`. -/
def State.setCa (s : State) (v : Nat) : State := { s with ca := v }

/-- `CB <- v`. -/
def State.setCb (s : State) (v : Nat) : State := { s with cb := v }

/-- `CP <- v`. -/
def State.setCp (s : State) (v : Nat) : State := { s with cp := v }

/-- `K <- v`. -/
def State.setK (s : State) (v : Nat) : State := { s with k := v }

/-- `F[i] <- v`. -/
def State.setF (s : State) (i : FIdx) (v : Nat) : State := { s with f := s.f.set i v }

/-- The three fields of `PT[n]` written together. -/
def State.setPt (s : State) (n : PIdx) (r : PointReg) : State := { s with pt := s.pt.set n r }

/-- `STATUS <- st`. -/
def State.setStatus (s : State) (st : StatusWord) : State := { s with status := st }

/-- The host's next event is taken off its list and the index moves on by 1 (10_state.md rule R16). -/
def State.advance (s : State) (rest : List HostEvent) : State := { s with pending := rest, pc := s.pc + 1 }

/-- The host receives the value a RD returned (20_memory.md rule R41; log 11). -/
def State.respond (s : State) (v : Nat) : State := { s with responses := v :: s.responses }

/-- `n` free values have been used (log 4). -/
def State.useFresh (s : State) (n : Nat) : State := { s with fresh := s.fresh + n }

/-! ### Free values (log 4) -/

/-- The `j`-th free value from here on for a W-bit register. -/
def State.freeField (s : State) (j : Nat) : Nat := Config.freeNumber (s.fresh + j) % 2 ^ s.geom.W

/-- The `j`-th free value from here on for K. -/
def State.freeScalar (s : State) (j : Nat) : Nat := Config.freeNumber (s.fresh + j) % 2 ^ s.geom.KW

/-- The `j`-th free bit from here on. -/
def State.freeBit (s : State) (j : Nat) : Bool := Config.freeBit (s.fresh + j)

/-- A point register with all three fields free, from the `j`-th free value on. -/
def State.freePointReg (s : State) (j : Nat) : PointReg := ⟨s.freeBit j, s.freeField (j + 1), s.freeField (j + 2)⟩

/-! ### Completion -/

/-- Normal completion (60_exceptions.md rule R182): ERR <- 0. -/
def State.completeOk (s : State) : State := s.setStatus (statusAfterOk s.status)

/-- ERROR COMPLETION, the block's only form of trap entry (60_exceptions.md rule R183): ERR <- code, STICKY <- 1, nothing
else. There is no saved state and no vector, and nothing to return from (rule R186). -/
def State.completeError (s : State) (e : ErrorKind) : State := s.setStatus (statusAfterError s.status e)

/-- A command writes a point value (10_state.md rule R14): an affine point clears INF; Infinity sets INF and leaves X and Y
unspecified (free values, log 9). -/
def State.writePoint (s : State) (n : PIdx) : Point → State
  | .affine x y => s.setPt n ⟨false, x, y⟩
  | .infinity => (s.setPt n ⟨true, s.freeField 0, s.freeField 1⟩).useFresh 2

/-- Steps 3 and 4 of 30_encoding.md rule R66 for a point command: write the result and complete with 0, or complete with the
error and write nothing. -/
def State.completePoint (s : State) (pd : PIdx) : Except ErrorKind Point → State
  | .ok R => (s.writePoint pd R).completeOk
  | .error e => s.completeError e

/-- Step 4 of 30_encoding.md rule R66 for a field command, which raises nothing. -/
def State.completeField (s : State) (fd : FIdx) (v : Nat) : State := (s.setF fd v).completeOk

/-- A field command outside its precondition: any W-bit value in the destination, completion code 0
(93_implementation_defined.md U1, U3; log 5). -/
def State.completeFieldUnspecified (s : State) (fd : FIdx) : State :=
  ((s.setF fd (s.freeField 0)).useFresh 1).completeOk

/-- A point command outside `ParamCurve`: any completion code from 0 to 3, and with code 0 any INF, X and Y in the
destination (93_implementation_defined.md U2, U3); with another code the destination is kept, as in every error completion
(60_exceptions.md rules R183, R184; log 6). DESIGN CHOICE (log 6, safe): at CP = 0 too the code is free, as U2 and
70_reset_and_hazards.md rule R210 allow, although U1 gives any arithmetic command there code 0. -/
def State.completePointUnspecified (s : State) (pd : PIdx) : State :=
  match errorOfCode (Config.freeCode s.fresh) with
  | none => ((s.setPt pd (s.freePointReg 1)).useFresh 4).completeOk
  | some e => (s.useFresh 4).completeError e

/-- PCHK's completion: ONC <- the result, ERR <- 0 (42_on_curve_check.md rule R102). -/
def State.completeCheck (s : State) (r : Bool) : State := (s.setStatus (statusWithOnc s.status r)).completeOk

/-! ### The host port on registers -/

/-- A WR to a selector other than CMD (20_memory.md rules R43, R45): a read/write register of width n takes v[n-1:0], a
point register's field alone; STATUS and reserved selectors take nothing. (CMD stores nothing itself: its command is run by
`performWr`.) -/
def State.writeSel (s : State) (sel : Option Sel) (v : Nat) : State :=
  match sel with
  | none => s
  | some .cmd => s
  | some .status => s
  | some .ca => s.setCa (v % 2 ^ s.geom.W)
  | some .cb => s.setCb (v % 2 ^ s.geom.W)
  | some .cp => s.setCp (v % 2 ^ s.geom.W)
  | some .k => s.setK (v % 2 ^ s.geom.KW)
  | some (.f i) => s.setF i (v % 2 ^ s.geom.W)
  | some (.ptX n) => s.setPt n { s.pt[n] with x := v % 2 ^ s.geom.W }
  | some (.ptY n) => s.setPt n { s.pt[n] with y := v % 2 ^ s.geom.W }
  | some (.ptInf n) => s.setPt n { s.pt[n] with inf := v % 2 == 1 }

/-- The value a RD returns, zero-extended to PW bits (20_memory.md rule R43); 0 for CMD and reserved selectors (rule R45). -/
def State.readSel (s : State) (sel : Option Sel) : Nat :=
  match sel with
  | none => 0
  | some .cmd => 0
  | some .status => s.status.toNat
  | some .ca => s.ca
  | some .cb => s.cb
  | some .cp => s.cp
  | some .k => s.k
  | some (.f i) => s.readF i
  | some (.ptX n) => (s.pt[n]).x
  | some (.ptY n) => (s.pt[n]).y
  | some (.ptInf n) => (s.pt[n]).inf.toNat

/-! ### Reset during a run -/

/-- The reset event (70_reset_and_hazards.md rule R200): STATUS <- 0x00 and every other register becomes unspecified, here a
free value of its width (log 12). -/
def State.resetEvent (s : State) : State :=
  { s with
    ca := s.freeField 0
    cb := s.freeField 1
    cp := s.freeField 2
    k := s.freeScalar 3
    f := Vector.ofFn fun i : Fin 8 => s.freeField (4 + i)
    pt := Vector.ofFn fun n : Fin 4 => s.freePointReg (12 + 3 * n)
    status := 0
    fresh := s.fresh + 24 }

end Sys2Proof.Machine
end

