-- ==== Sys2Proof/Machine/Control.lean ====
section
/-! DEFINITION. The control command CLRERR (47_system_commands.md). -/

namespace Sys2Proof.Machine

/-- CLRERR (47_system_commands.md rule R150): STICKY <- 0, ERR <- 0, ONC kept. -/
def execClrerr (s : State) : Host.Outcome State Fault Refusal :=
  .next (s.setStatus (statusWithSticky s.status false)).completeOk

end Sys2Proof.Machine
end

