-- ==== Sys2Proof/Machine/FieldUnit.lean ====
section
/-! DEFINITION. The two field units: MONTMUL (40_montgomery_mult.md), MODADD and MODSUB (41_modular_adder_subtracter.md). -/

namespace Sys2Proof.Machine

/-- `modaddsub(u, v, p, sub)` (41_modular_adder_subtracter.md rule R90); the mode is bit 12 of the command word. -/
def modaddsub (u v p : Nat) (sub : Bool) : Nat := if sub then subm u v p else addm u v p

/-- MODADD and MODSUB: one unit with a mode select (41_modular_adder_subtracter.md rules R90, R92, R93). -/
def State.addSubUnit (s : State) (sub : Bool) (fd fs1 fs2 : FIdx) : State :=
  let u := s.readF fs1
  let v := s.readF fs2
  if ParamField s.cp u v then s.completeField fd (modaddsub u v s.cp sub) else s.completeFieldUnspecified fd

/-- MONTMUL (40_montgomery_mult.md rule R81); outside `ParamMont`, log 5. -/
def execMontmul (fd fs1 fs2 : FIdx) (s : State) : Host.Outcome State Fault Refusal :=
  let u := s.readF fs1
  let v := s.readF fs2
  .next (if ParamMont s.cp u v then s.completeField fd (montmul s.geom.W u v s.cp) else s.completeFieldUnspecified fd)

/-- MODADD (41_modular_adder_subtracter.md rule R92); outside `ParamField`, log 5. -/
def execModadd (fd fs1 fs2 : FIdx) (s : State) : Host.Outcome State Fault Refusal :=
  .next (s.addSubUnit false fd fs1 fs2)

/-- MODSUB (41_modular_adder_subtracter.md rule R93): first source minus second; outside `ParamField`, log 5. -/
def execModsub (fd fs1 fs2 : FIdx) (s : State) : Host.Outcome State Fault Refusal :=
  .next (s.addSubUnit true fd fs1 fs2)

end Sys2Proof.Machine
end

