-- ==== Sys2Proof/Machine/PointUnit.lean ====
section
/-! DEFINITION. The on-curve check (42_on_curve_check.md), the point adder (43_ecc_point_adder.md) and the point doubler
(44_ecc_point_doubler.md): the functions, in the plain domain (40_montgomery_mult.md rule R84), and the commands PCHK, PADD
and PDBL. -/

namespace Sys2Proof.Machine

/-- `isOnCurve(a, b, p, P)` (42_on_curve_check.md rule R101). -/
def isOnCurve (a b p : Nat) : Point → Bool
  | .infinity => true
  | .affine x y => y * y % p == (x * x * x + a * x + b) % p

/-- The result of a chord or tangent of slope `lam` through (x1, y1), with x2 the other abscissa: the last lines of
43_ecc_point_adder.md rule R111 and, with x2 = x1, of 44_ecc_point_doubler.md rule R121. -/
def chordPoint (p lam x1 y1 x2 : Nat) : Point :=
  let xR := modp ((lam : Int) * lam - x1 - x2) p
  .affine xR (modp ((lam : Int) * (x1 - xR) - y1) p)

/-- `add(p, P, Q)` (43_ecc_point_adder.md rule R111): the cases in the order written. -/
def add (p : Nat) (P Q : Point) : Except ErrorKind Point :=
  match P with
  | .infinity => .ok Q
  | .affine xP yP =>
    match Q with
    | .infinity => .ok P
    | .affine xQ yQ =>
      if xP = xQ ∧ yP = yQ then .error .equalPoints
      else if xP = xQ ∧ (yP + yQ) % p = 0 then .ok .infinity
      else
        match invm (modp ((xQ : Int) - xP) p) p with
        | .error e => .error e
        | .ok di => .ok (chordPoint p (modp (((yQ : Int) - yP) * di) p) xP yP xQ)

/-- `double(a, b, p, P)` (44_ecc_point_doubler.md rule R121): the steps in the order written. -/
def double (a b p : Nat) (P : Point) : Except ErrorKind Point :=
  match P with
  | .infinity => .ok .infinity
  | .affine x y =>
    if isOnCurve a b p P then
      match invm (2 * y % p) p with
      | .error e => .error e
      | .ok di => .ok (chordPoint p ((3 * x * x + a) * di % p) x y x)
    else .error .notOnCurve

/-- PADD (43_ecc_point_adder.md rule R112); outside `ParamCurve`, log 6. -/
def execPadd (pd ps1 ps2 : PIdx) (s : State) : Host.Outcome State Fault Refusal :=
  let P := s.readPt ps1
  let Q := s.readPt ps2
  .next (if ParamAdd s.cp P Q then s.completePoint pd (add s.cp P Q) else s.completePointUnspecified pd)

/-- PDBL (44_ecc_point_doubler.md rule R122); outside `ParamCurve`, log 6. -/
def execPdbl (pd ps1 : PIdx) (s : State) : Host.Outcome State Fault Refusal :=
  let P := s.readPt ps1
  .next (if ParamCurve s.ca s.cb s.cp P then s.completePoint pd (double s.ca s.cb s.cp P)
    else s.completePointUnspecified pd)

/-- PCHK (42_on_curve_check.md rule R102); outside `ParamCurve` the result is free and the code is still 0
(60_exceptions.md rule R180; log 7). -/
def execPchk (ps1 : PIdx) (s : State) : Host.Outcome State Fault Refusal :=
  let P := s.readPt ps1
  .next (if ParamCurve s.ca s.cb s.cp P then s.completeCheck (isOnCurve s.ca s.cb s.cp P)
    else (s.useFresh 1).completeCheck (s.freeBit 0))

end Sys2Proof.Machine
end

