-- ==== Sys2Proof/Machine/ScalarUnit.lean ====
section
/-! DEFINITION. The two scalar multipliers: double-and-add (45_ecc_scalar_multiplier_dbl_add.md) and the Montgomery ladder
(46_ecc_scalar_multiplier_mont_ladder.md). Their working points are hidden state (10_state.md rule R20): local here. -/

namespace Sys2Proof.Machine

/-- The bits of k, least significant first: bit 0 to bit numBits(k) - 1 (00_scope.md rule R8). -/
def bitsOf (k : Nat) : List Bool := (List.range (numBits k)).map (bit k)

/-- One iteration of double-and-add on (Q, P'): the addition, if the bit is set, before the doubling, which is always done
(45_ecc_scalar_multiplier_dbl_add.md rule R130). -/
def dblAddStep (a b p : Nat) (w : Point × Point) (set : Bool) : Except ErrorKind (Point × Point) := do
  let Q ← if set then add p w.1 w.2 else .ok w.1
  let P' ← double a b p w.2
  return (Q, P')

/-- `scalarMulDoubleAndAdd(a, b, p, P, k)` (45_ecc_scalar_multiplier_dbl_add.md rule R130). -/
def scalarMulDoubleAndAdd (a b p : Nat) (P : Point) (k : Nat) : Except ErrorKind Point := do
  let w ← (bitsOf k).foldlM (dblAddStep a b p) (.infinity, P)
  return w.1

/-- One iteration of the ladder on (R0, R1): one addition add(R0, R1), then one doubling, of R1 if the bit is set and of R0
if not (46_ecc_scalar_multiplier_mont_ladder.md rule R140). -/
def ladderStep (a b p : Nat) (w : Point × Point) (set : Bool) : Except ErrorKind (Point × Point) := do
  let S ← add p w.1 w.2
  let D ← double a b p (if set then w.2 else w.1)
  return if set then (S, D) else (D, S)

/-- The ladder over a list of bits, most significant first. -/
def ladderBits (a b p : Nat) (P : Point) (bits : List Bool) : Except ErrorKind Point := do
  let w ← bits.foldlM (ladderStep a b p) (.infinity, P)
  return w.1

/-- `scalarMulLadder(a, b, p, P, k)` (46_ecc_scalar_multiplier_mont_ladder.md rule R140): from bit numBits(k) - 1 down to
bit 0. -/
def scalarMulLadder (a b p : Nat) (P : Point) (k : Nat) : Except ErrorKind Point :=
  ladderBits a b p P (bitsOf k).reverse

/-- What the two scalar commands share: precondition, completion (log 6, log 8). -/
def State.scalarUnit (s : State) (mul : Nat → Nat → Nat → Point → Nat → Except ErrorKind Point) (pd ps1 : PIdx) : State :=
  let P := s.readPt ps1
  if ParamScalar s.ca s.cb s.cp s.k P then s.completePoint pd (mul s.ca s.cb s.cp P s.k)
  else s.completePointUnspecified pd

/-- SMULDA (45_ecc_scalar_multiplier_dbl_add.md rule R131). -/
def execSmulda (pd ps1 : PIdx) (s : State) : Host.Outcome State Fault Refusal :=
  .next (s.scalarUnit scalarMulDoubleAndAdd pd ps1)

/-- SMULML (46_ecc_scalar_multiplier_mont_ladder.md rule R141). -/
def execSmulml (pd ps1 : PIdx) (s : State) : Host.Outcome State Fault Refusal :=
  .next (s.scalarUnit scalarMulLadder pd ps1)

end Sys2Proof.Machine
end

