-- ==== Sys2Proof/Machine/Dispatch.lean ====
section
/-! DEFINITION. One arm per command: each calls its meaning (30_encoding.md rule R66). -/

namespace Sys2Proof.Machine

-- what a command does to the state
def exec (i : Instr) (s : State) : Host.Outcome State Fault Refusal :=
  match i with
  | .montmul fd fs1 fs2 => Sys2Proof.Machine.execMontmul fd fs1 fs2 s
  | .modadd fd fs1 fs2 => Sys2Proof.Machine.execModadd fd fs1 fs2 s
  | .modsub fd fs1 fs2 => Sys2Proof.Machine.execModsub fd fs1 fs2 s
  | .padd pd ps1 ps2 => Sys2Proof.Machine.execPadd pd ps1 ps2 s
  | .pdbl pd ps1 => Sys2Proof.Machine.execPdbl pd ps1 s
  | .smulda pd ps1 => Sys2Proof.Machine.execSmulda pd ps1 s
  | .smulml pd ps1 => Sys2Proof.Machine.execSmulml pd ps1 s
  | .pchk ps1 => Sys2Proof.Machine.execPchk ps1 s
  | .clrerr => Sys2Proof.Machine.execClrerr s

end Sys2Proof.Machine
end

