-- ==== Sys2Proof/Machine/Port.lean ====
section
/-! DEFINITION. The host port: what a WR, a RD and a reset event do (20_memory.md rules R41 to R45,
70_reset_and_hazards.md rule R200), and taking the host's next event (10_state.md rule R16). -/

namespace Sys2Proof.Machine

/-- A WR to CMD executes the word as one indivisible step (20_memory.md rule R44); an illegal word completes with
IllegalCommand and nothing is read (30_encoding.md rule R64). -/
def runCommand (w : CmdWord) (s : State) : Host.Outcome State Fault Refusal :=
  match decode w with
  | .ok i => exec i s
  | .error _ => .next (s.completeError .illegalCommand)

/-- `WR(sel, v)` (20_memory.md rule R41); of a value written to CMD only v[15:0] is the word. -/
def performWr (sel : Selector) (v : Nat) (s : State) : Host.Outcome State Fault Refusal :=
  match decodeSel sel with
  | some .cmd => runCommand (BitVec.ofNat 16 v) s
  | r => .next (s.writeSel r v)

/-- `RD(sel)` (20_memory.md rule R41): the host receives the value; the block's state does not change. -/
def performRd (sel : Selector) (s : State) : Host.Outcome State Fault Refusal :=
  .next (s.respond (s.readSel (decodeSel sel)))

/-- One event from outside. -/
def performEvent (e : HostEvent) (s : State) : Host.Outcome State Fault Refusal :=
  match e with
  | .wr sel v => performWr sel v s
  | .rd sel => performRd sel s
  | .reset => .next s.resetEvent

/-- The host's next event is taken and performed; with none left the block is idle and keeps all its registers
(60_exceptions.md rule R191; log 10). -/
def nextEvent (s : State) : Host.Outcome State Fault Refusal :=
  match s.pending with
  | [] => .next s
  | e :: rest => performEvent e (s.advance rest)

end Sys2Proof.Machine
end

