-- ==== Sys2Proof/Machine/Step.lean ====
section
/-! DEFINITION. One step of the machine: one host event (10_state.md rule R16, 20_memory.md rule R44). -/

namespace Sys2Proof.Machine

/-- One step: the next event of the host's list. -/
def step (s : State) : Host.Outcome State Fault Refusal := nextEvent s

/-- The host's next transaction is a WR of this command word to CMD (selector 0x00); the events that were pending follow it
(log 10). -/
def State.withFetchWord (s : State) (nbits w : Nat) : State :=
  { s with pending := .wr 0x00 (w % 2 ^ nbits) :: s.pending }

end Sys2Proof.Machine
end

