-- ==== Sys2Proof/Machine/Assembler.lean ====
section
/-! DEFINITION. The host program as text: one transaction per line (30_encoding.md rule R67) and the pseudo-instructions
(rule R68), read into the list of host events that a step takes its next one from. Host side only: no command depends on it. -/

namespace Sys2Proof.Machine

/-- A line of a host program (30_encoding.md rules R67, R68). -/
inductive AsmLine where
  /-- `WR <reg>, <value>` -/
  | wr (sel : Selector) (v : Nat)
  /-- `RD <reg>` -/
  | rd (sel : Selector)
  /-- a command mnemonic with its operands -/
  | command (i : Instr)
  /-- `LDPT PTn, x, y`: load the affine point (x, y) -/
  | ldpt (n : PIdx) (x y : Nat)
  /-- `LDINF PTn`: load Infinity -/
  | ldinf (n : PIdx)
  /-- `LDCURVE a, b, p`: load the curve parameters -/
  | ldcurve (a b p : Nat)
  /-- `RDPT PTn`: read a point -/
  | rdpt (n : PIdx)
  deriving DecidableEq, Repr

/-- The transactions a line stands for (30_encoding.md rules R67, R68). -/
def AsmLine.expand : AsmLine → List HostEvent
  | .wr sel v => [.wr sel v]
  | .rd sel => [.rd sel]
  | .command i => [.wr (encodeSel .cmd) (encode i).toNat]
  | .ldpt n x y => [.wr (encodeSel (.ptX n)) x, .wr (encodeSel (.ptY n)) y, .wr (encodeSel (.ptInf n)) 0]
  | .ldinf n => [.wr (encodeSel (.ptInf n)) 1]
  | .ldcurve a b p => [.wr (encodeSel .ca) a, .wr (encodeSel .cb) b, .wr (encodeSel .cp) p]
  | .rdpt n => [.rd (encodeSel (.ptInf n)), .rd (encodeSel (.ptX n)), .rd (encodeSel (.ptY n))]

/-! ### Reading the text (log 21) -/

/-- The text before the comment sign `;`. -/
def dropComment (l : List Char) : List Char := l.takeWhile (· ≠ ';')

/-- Characters that separate the words of a line. -/
def isSeparator (c : Char) : Bool := c == ' ' || c == '\t' || c == ','

/-- The words of a line, with the word being read, reversed, as the second argument. -/
def splitWords : List Char → List Char → List (List Char)
  | [], [] => []
  | [], w => [w.reverse]
  | c :: cs, w =>
    if isSeparator c then
      if w.isEmpty then splitWords cs [] else w.reverse :: splitWords cs []
    else splitWords cs (c :: w)

/-- The value of a digit of the base, `none` for any other character. -/
def digitOf (base : Nat) (c : Char) : Option Nat :=
  let n := c.toNat
  let d? := if 48 ≤ n ∧ n ≤ 57 then some (n - 48) else if 65 ≤ n ∧ n ≤ 70 then some (n - 55)
    else if 97 ≤ n ∧ n ≤ 102 then some (n - 87) else none
  d?.bind fun d => if d < base then some d else none

/-- A non-empty string of digits of the base. -/
def numeral (base : Nat) (l : List Char) : Option Nat :=
  if l.isEmpty then none else l.foldlM (fun acc c => (digitOf base c).map (acc * base + ·)) 0

/-- A decimal or `0x` hexadecimal number (30_encoding.md rule R67). -/
def readNumber : List Char → Option Nat
  | '0' :: 'x' :: l => numeral 16 l
  | l => numeral 10 l

/-- `F0`..`F7`. -/
def readF : List Char → Option FIdx
  | ['F', c] => (digitOf 10 c).bind fun d => if h : d < 8 then some ⟨d, h⟩ else none
  | _ => none

/-- `PT0`..`PT3`. -/
def readPT : List Char → Option PIdx
  | ['P', 'T', c] => (digitOf 10 c).bind fun d => if h : d < 4 then some ⟨d, h⟩ else none
  | _ => none

/-- A register name (30_encoding.md rule R67; the names CMD and STATUS of 20_memory.md rule R42 too). -/
def readRegName (l : List Char) : Option Sel :=
  if l = ['C', 'A'] then some .ca
  else if l = ['C', 'B'] then some .cb
  else if l = ['C', 'P'] then some .cp
  else if l = ['K'] then some .k
  else if l = ['C', 'M', 'D'] then some .cmd
  else if l = ['S', 'T', 'A', 'T', 'U', 'S'] then some .status
  else match readF l with
    | some i => some (.f i)
    | none =>
      match l with
      | ['P', 'T', c, '.', 'X'] => (readPT ['P', 'T', c]).map .ptX
      | ['P', 'T', c, '.', 'Y'] => (readPT ['P', 'T', c]).map .ptY
      | ['P', 'T', c, '.', 'I', 'N', 'F'] => (readPT ['P', 'T', c]).map .ptInf
      | _ => none

/-- `<reg>`: a register name or a selector number (30_encoding.md rule R67). -/
def readReg (l : List Char) : Option Selector :=
  match readRegName l with
  | some r => some (encodeSel r)
  | none => (readNumber l).bind fun n => if n < 256 then some (BitVec.ofNat 8 n) else none

/-- The line that a first word and its operands make; `none` where the words are no line of rules R67, R68. -/
def readWords (op : List Char) (args : List (List Char)) : Option AsmLine :=
  match args with
  | [] => if op = ['C', 'L', 'R', 'E', 'R', 'R'] then some (.command .clrerr) else none
  | [x] =>
    if op = ['R', 'D'] then (readReg x).map .rd
    else if op = ['P', 'C', 'H', 'K'] then (readPT x).map (.command <| .pchk ·)
    else if op = ['L', 'D', 'I', 'N', 'F'] then (readPT x).map .ldinf
    else if op = ['R', 'D', 'P', 'T'] then (readPT x).map .rdpt
    else none
  | [x, y] =>
    if op = ['W', 'R'] then do return .wr (← readReg x) (← readNumber y)
    else if op = ['P', 'D', 'B', 'L'] then do return .command (.pdbl (← readPT x) (← readPT y))
    else if op = ['S', 'M', 'U', 'L', 'D', 'A'] then do return .command (.smulda (← readPT x) (← readPT y))
    else if op = ['S', 'M', 'U', 'L', 'M', 'L'] then do return .command (.smulml (← readPT x) (← readPT y))
    else none
  | [x, y, z] =>
    if op = ['M', 'O', 'N', 'T', 'M', 'U', 'L'] then do return .command (.montmul (← readF x) (← readF y) (← readF z))
    else if op = ['M', 'O', 'D', 'A', 'D', 'D'] then do return .command (.modadd (← readF x) (← readF y) (← readF z))
    else if op = ['M', 'O', 'D', 'S', 'U', 'B'] then do return .command (.modsub (← readF x) (← readF y) (← readF z))
    else if op = ['P', 'A', 'D', 'D'] then do return .command (.padd (← readPT x) (← readPT y) (← readPT z))
    else if op = ['L', 'D', 'P', 'T'] then do return .ldpt (← readPT x) (← readNumber y) (← readNumber z)
    else if op = ['L', 'D', 'C', 'U', 'R', 'V', 'E'] then
      do return .ldcurve (← readNumber x) (← readNumber y) (← readNumber z)
    else none
  | _ => none

/-- The events of one line of text: none for a blank or comment line, `none` where the text is no line of the assembler. -/
def assembleLine (l : List Char) : Option (List HostEvent) :=
  match splitWords (dropComment l) [] with
  | [] => some []
  | op :: args => (readWords op args).map AsmLine.expand

/-- The events of a program, its lines in order. -/
def assemble (lines : List (List Char)) : Option (List HostEvent) := (lines.mapM assembleLine).map List.flatten

end Sys2Proof.Machine
end

