-- ==== Sys2Proof/Machine/Reference.lean ====
section
/-! DEFINITION. The informative reference algorithms of the field units (40_montgomery_mult.md rule R82,
41_modular_adder_subtracter.md rule R91). No command uses them; the obligations say they compute what the commands do. -/

namespace Sys2Proof.Machine

/-- One iteration of the bit-serial Montgomery product on the partial sum S (40_montgomery_mult.md rule R82). -/
def montSerialStep (p v : Nat) (S : Nat) (ui : Bool) : Nat :=
  let S1 := if ui then S + v else S
  let S2 := if S1 % 2 = 1 then S1 + p else S1
  S2 / 2

/-- The partial sum after the iterations for bits 0 to n - 1 of u. -/
def montSerialSum (p u v : Nat) : Nat → Nat
  | 0 => 0
  | n + 1 => montSerialStep p v (montSerialSum p u v n) (bit u n)

/-- The bit-serial radix-2 interleaved Montgomery product (40_montgomery_mult.md rule R82). -/
def montSerial (W u v p : Nat) : Nat :=
  let S := montSerialSum p u v W
  if p ≤ S then S - p else S

/-- Addition with one conditional correction (41_modular_adder_subtracter.md rule R91). -/
def addCorrect (u v p : Nat) : Nat :=
  let t := u + v
  if p ≤ t then t - p else t

/-- Subtraction with one conditional correction (41_modular_adder_subtracter.md rule R91). -/
def subCorrect (u v p : Nat) : Nat :=
  let t : Int := (u : Int) - v
  (if t < 0 then t + p else t).toNat

end Sys2Proof.Machine
end

