-- ==== Sys2Proof/Machine/CallCount.lean ====
section
/-! DEFINITION. The two scalar multiplications once more, counting their calls of `add` and `double`
(46_ecc_scalar_multiplier_mont_ladder.md rule R142, 70_reset_and_hazards.md rule R221). No command uses them and no result
depends on a count (log 19). -/

namespace Sys2Proof.Machine

/-- How many calls of `add` and of `double` have been made. -/
structure CallCount where
  adds : Nat
  doubles : Nat
  deriving DecidableEq, Repr

/-- A computation that counts its calls and may raise. -/
abbrev Counted (α : Type) := CallCount → Except ErrorKind (α × CallCount)

/-- A call of `add`, counted. -/
def countedAdd (p : Nat) (P Q : Point) : Counted Point := fun c => do
  let R ← add p P Q
  return (R, { c with adds := c.adds + 1 })

/-- A call of `double`, counted. -/
def countedDouble (a b p : Nat) (P : Point) : Counted Point := fun c => do
  let R ← double a b p P
  return (R, { c with doubles := c.doubles + 1 })

/-- `dblAddStep` with its calls counted. -/
def countedDblAddStep (a b p : Nat) (w : (Point × Point) × CallCount) (set : Bool) :
    Except ErrorKind ((Point × Point) × CallCount) := do
  let (Q, c) ← if set then countedAdd p w.1.1 w.1.2 w.2 else .ok (w.1.1, w.2)
  let (P', c) ← countedDouble a b p w.1.2 c
  return ((Q, P'), c)

/-- `ladderStep` with its calls counted. -/
def countedLadderStep (a b p : Nat) (w : (Point × Point) × CallCount) (set : Bool) :
    Except ErrorKind ((Point × Point) × CallCount) := do
  let (S, c) ← countedAdd p w.1.1 w.1.2 w.2
  let (D, c) ← countedDouble a b p (if set then w.1.2 else w.1.1) c
  return (if set then (S, D) else (D, S), c)

/-- `scalarMulDoubleAndAdd` with its calls counted. -/
def countedDoubleAndAdd (a b p : Nat) (P : Point) (k : Nat) : Except ErrorKind (Point × CallCount) := do
  let w ← (bitsOf k).foldlM (countedDblAddStep a b p) ((.infinity, P), ⟨0, 0⟩)
  return (w.1.1, w.2)

/-- `scalarMulLadder` with its calls counted. -/
def countedLadder (a b p : Nat) (P : Point) (k : Nat) : Except ErrorKind (Point × CallCount) := do
  let w ← (bitsOf k).reverse.foldlM (countedLadderStep a b p) ((.infinity, P), ⟨0, 0⟩)
  return (w.1.1, w.2)

/-- `HammingWeight(k)`: the number of set bits (45_ecc_scalar_multiplier_dbl_add.md rule R131). -/
def hammingWeight (k : Nat) : Nat := (bitsOf k).countP (· == true)

end Sys2Proof.Machine
end

