-- ==== Sys2Proof/Safety.lean ====
section
/-! DEFINITION. The terms in which claims about the machine are made: the invariant of the state, what a command leaves
unchanged, how a command completes, what its operands are, and which element of the curve's group a point stands for. -/

namespace Sys2Proof.Machine

/-- The invariant of a state: the widths are legal (00_scope.md rules R3, R4), every register fits its width
(41_modular_adder_subtracter.md rule R94: a result "always fits its W-bit register"), STATUS holds only values the block
produces (10_state.md rule R17; 93_implementation_defined.md U6), and a non-zero ERR goes with STICKY (10_state.md rule
R18). -/
structure State.Wf (s : State) : Prop where
  geom_valid : s.geom.Valid
  ca_lt : s.ca < 2 ^ s.geom.W
  cb_lt : s.cb < 2 ^ s.geom.W
  cp_lt : s.cp < 2 ^ s.geom.W
  k_lt : s.k < 2 ^ s.geom.KW
  f_lt : ∀ i : FIdx, s.readF i < 2 ^ s.geom.W
  x_lt : ∀ n : PIdx, (s.pt[n]).x < 2 ^ s.geom.W
  y_lt : ∀ n : PIdx, (s.pt[n]).y < 2 ^ s.geom.W
  err_le : (statusErr s.status).toNat ≤ 4
  reserved_zero : statusReserved s.status = 0
  sticky_of_err : statusErr s.status ≠ 0 → statusSticky s.status = true

/-- The registers of the block other than STATUS are as before, except a field register `fd` and a point register `pd` where
one is named (10_state.md rule R19). The widths of the instance are the same too. -/
structure KeepsRegisters (fd : Option FIdx) (pd : Option PIdx) (s t : State) : Prop where
  geom : t.geom = s.geom
  ca : t.ca = s.ca
  cb : t.cb = s.cb
  cp : t.cp = s.cp
  k : t.k = s.k
  f : ∀ j : FIdx, fd ≠ some j → t.readF j = s.readF j
  pt : ∀ n : PIdx, pd ≠ some n → t.pt[n] = s.pt[n]

/-- The host's side is as before: the events to come, their index, and the values received. A command changes none of it
(47_system_commands.md rule R152). -/
structure KeepsHost (s t : State) : Prop where
  pending : t.pending = s.pending
  pc : t.pc = s.pc
  responses : t.responses = s.responses

/-- Everything a command with these destinations leaves unchanged, but for STATUS. -/
def Frame (fd : Option FIdx) (pd : Option PIdx) (s t : State) : Prop := KeepsRegisters fd pd s t ∧ KeepsHost s t

/-- STATUS as a normal completion leaves it: ERR = 0, STICKY, ONC and the reserved bits kept (60_exceptions.md rule R182). -/
structure StatusOk (s t : State) : Prop where
  err : statusErr t.status = 0
  sticky : statusSticky t.status = statusSticky s.status
  onc : statusOnc t.status = statusOnc s.status
  reserved : statusReserved t.status = statusReserved s.status

/-- STATUS as an error completion leaves it: ERR = code, STICKY = 1, ONC and the reserved bits kept (60_exceptions.md rule
R183). -/
structure StatusError (c : BitVec 3) (s t : State) : Prop where
  err : statusErr t.status = c
  sticky : statusSticky t.status = true
  onc : statusOnc t.status = statusOnc s.status
  reserved : statusReserved t.status = statusReserved s.status

/-- The field register a command writes, if it has one (10_state.md rule R19). -/
def fieldDest : Instr → Option FIdx
  | .montmul fd _ _ => some fd
  | .modadd fd _ _ => some fd
  | .modsub fd _ _ => some fd
  | .padd .. => none
  | .pdbl .. => none
  | .smulda .. => none
  | .smulml .. => none
  | .pchk _ => none
  | .clrerr => none

/-- The point register a command writes, if it has one (10_state.md rule R19). -/
def pointDest : Instr → Option PIdx
  | .montmul .. => none
  | .modadd .. => none
  | .modsub .. => none
  | .padd pd _ _ => some pd
  | .pdbl pd _ => some pd
  | .smulda pd _ => some pd
  | .smulml pd _ => some pd
  | .pchk _ => none
  | .clrerr => none

/-- CP is an odd prime, CA and CB are below it: the part of `ParamCurve` about the parameters (10_state.md section 2), in
Mathlib's terms. -/
structure CurveParams (a b p : Nat) : Prop where
  prime : p.Prime
  odd : p % 2 = 1
  a_lt : a < p
  b_lt : b < p

/-- The precondition a command's rule names: `ParamField`, `ParamMont`, `ParamCurve` (10_state.md section 2; K = 0, log 8).
CLRERR has none (47_system_commands.md rule R150). -/
def Precondition (i : Instr) (s : State) : Prop :=
  match i with
  | .montmul _ fs1 fs2 => 1 ≤ s.cp ∧ s.cp % 2 = 1 ∧ s.readF fs1 < s.cp ∧ s.readF fs2 < s.cp
  | .modadd _ fs1 fs2 => 1 ≤ s.cp ∧ s.readF fs1 < s.cp ∧ s.readF fs2 < s.cp
  | .modsub _ fs1 fs2 => 1 ≤ s.cp ∧ s.readF fs1 < s.cp ∧ s.readF fs2 < s.cp
  | .padd _ ps1 ps2 => s.cp.Prime ∧ s.cp % 2 = 1 ∧ (s.readPt ps1).reduced s.cp ∧ (s.readPt ps2).reduced s.cp
  | .pdbl _ ps1 => CurveParams s.ca s.cb s.cp ∧ (s.readPt ps1).reduced s.cp
  | .smulda _ ps1 => CurveParams s.ca s.cb s.cp ∧ ((s.readPt ps1).reduced s.cp ∨ s.k = 0)
  | .smulml _ ps1 => CurveParams s.ca s.cb s.cp ∧ ((s.readPt ps1).reduced s.cp ∨ s.k = 0)
  | .pchk ps1 => CurveParams s.ca s.cb s.cp ∧ (s.readPt ps1).reduced s.cp
  | .clrerr => True

/-- Two states agree on everything the command names or uses as an operand (00_scope.md rule R2): its source registers, the
curve parameters and, for the scalar multipliers, K; and on the widths of the instance. -/
def SameOperands (i : Instr) (s t : State) : Prop :=
  s.geom = t.geom ∧
  match i with
  | .montmul _ fs1 fs2 => s.cp = t.cp ∧ s.readF fs1 = t.readF fs1 ∧ s.readF fs2 = t.readF fs2
  | .modadd _ fs1 fs2 => s.cp = t.cp ∧ s.readF fs1 = t.readF fs1 ∧ s.readF fs2 = t.readF fs2
  | .modsub _ fs1 fs2 => s.cp = t.cp ∧ s.readF fs1 = t.readF fs1 ∧ s.readF fs2 = t.readF fs2
  | .padd _ ps1 ps2 => s.cp = t.cp ∧ s.readPt ps1 = t.readPt ps1 ∧ s.readPt ps2 = t.readPt ps2
  | .pdbl _ ps1 => s.ca = t.ca ∧ s.cb = t.cb ∧ s.cp = t.cp ∧ s.readPt ps1 = t.readPt ps1
  | .smulda _ ps1 => s.ca = t.ca ∧ s.cb = t.cb ∧ s.cp = t.cp ∧ s.k = t.k ∧ s.readPt ps1 = t.readPt ps1
  | .smulml _ ps1 => s.ca = t.ca ∧ s.cb = t.cb ∧ s.cp = t.cp ∧ s.k = t.k ∧ s.readPt ps1 = t.readPt ps1
  | .pchk ps1 => s.ca = t.ca ∧ s.cb = t.cb ∧ s.cp = t.cp ∧ s.readPt ps1 = t.readPt ps1
  | .clrerr => True

/-- The reserved selectors (20_memory.md rule R42): 0x06 to 0x0F, 0x18 to 0x1F, 0x23 + 4n, 0x30 to 0xFF. -/
abbrev ReservedSelector (v : Selector) : Prop :=
  (0x06 ≤ v.toNat ∧ v.toNat ≤ 0x0F) ∨ (0x18 ≤ v.toNat ∧ v.toNat ≤ 0x1F) ∨
  (∃ n : PIdx, v.toNat = 0x23 + 4 * n) ∨ 0x30 ≤ v.toNat

/-- The fields of an illegal word (30_encoding.md rule R64): the op is 0x0 or 0xA to 0xF, or an index field the command uses is
out of range, or a field it does not use is not 0. -/
abbrev IllegalFields (op rd rs1 rs2 : Nat) : Prop :=
  op = 0 ∨ 10 ≤ op ∨
  (1 ≤ op ∧ op ≤ 3 ∧ (7 < rd ∨ 7 < rs1 ∨ 7 < rs2)) ∨
  (op = 4 ∧ (3 < rd ∨ 3 < rs1 ∨ 3 < rs2)) ∨
  (5 ≤ op ∧ op ≤ 7 ∧ (3 < rd ∨ 3 < rs1 ∨ rs2 ≠ 0)) ∨
  (op = 8 ∧ (rd ≠ 0 ∨ 3 < rs1 ∨ rs2 ≠ 0)) ∨
  (op = 9 ∧ (rd ≠ 0 ∨ rs1 ≠ 0 ∨ rs2 ≠ 0))

/-- A command word is illegal (30_encoding.md rule R64): bits 15:12, 11:8, 7:4 and 3:0 are the fields (rule R61). -/
abbrev IllegalWord (w : CmdWord) : Prop :=
  IllegalFields (w.toNat / 4096) (w.toNat / 256 % 16) (w.toNat / 16 % 16) (w.toNat % 16)

/-- The curve y² = x³ + a·x + b over the integers modulo p (42_on_curve_check.md rule R100), as Mathlib has it. -/
def curveOf (a b p : Nat) : WeierstrassCurve.Affine (ZMod p) := ⟨0, 0, 0, a, b⟩

/-- Non-singularity: 4a³ + 27b² is not 0 modulo p (10_state.md section 2). -/
def NonSingular (a b p : Nat) : Prop := (4 * a ^ 3 + 27 * b ^ 2) % p ≠ 0

/-- A point value of the block stands for an element of the group of the curve (48_laws_and_properties.md, preamble). -/
def Represents {a b p : Nat} (P : Point) (A : (curveOf a b p).Point) : Prop :=
  match P, A with
  | .infinity, .zero => True
  | .affine x y, .some X Y _ => (x : ZMod p) = X ∧ (y : ZMod p) = Y
  | .infinity, .some .. => False
  | .affine .., .zero => False

end Sys2Proof.Machine
end

