-- ==== Sys2Proof/Certificates/Slice0/Obligations.lean ====
section
/-! DEFINITION. The statements for the provers. Each docstring names the rule of the spec it comes from; where a clause is the
model's own choice it names the assumption log's entry. No statement rests on the value of a free value or on the widths of
`State.reset`. -/

open Sys2Proof Sys2Proof.Machine

/-! ### Encoding and decoding -/

/-- 30_encoding.md R67 (examples) and 95_test_vectors.md section 2.7: words written out from the encoding and what they
decode to. -/
def Obligations.DecodeReadsSampleWords : Prop :=
  decode 0x1201 = .ok (.montmul 2 0 1) ∧ decode 0x1777 = .ok (.montmul 7 7 7) ∧
  decode 0x2201 = .ok (.modadd 2 0 1) ∧ decode 0x3770 = .ok (.modsub 7 7 0) ∧
  decode 0x4123 = .ok (.padd 1 2 3) ∧ decode 0x5100 = .ok (.pdbl 1 0) ∧
  decode 0x6300 = .ok (.smulda 3 0) ∧ decode 0x7300 = .ok (.smulml 3 0) ∧
  decode 0x8020 = .ok (.pchk 2) ∧ decode 0x9000 = .ok .clrerr ∧
  decode 0x0000 = .error .illegalOp ∧ decode 0xFFFF = .error .illegalOp ∧
  decode 0x1800 = .error .indexOutOfRange ∧ decode 0x5104 = .error .unusedFieldNotZero ∧
  decode 0x8120 = .error .unusedFieldNotZero ∧ decode 0x9001 = .error .unusedFieldNotZero

/-- R63: no bit of a command's encoding is dropped; every command, with every operand, decodes back. -/
def Obligations.EncodeThenDecodeIsIdentity : Prop :=
  ∀ i : Instr, decode (encode i) = .ok i

/-- R65: a legal word is exactly one command: the word of what it decodes to is the word itself. -/
def Obligations.DecodeThenEncodeIsIdentity : Prop :=
  ∀ (w : CmdWord) (i : Instr), decode w = .ok i → encode i = w

/-- R63: "A word w selects the row whose (w AND mask) = match; the rows are disjoint": a word decodes exactly when it selects a
row of the table, and the row it selects is that of the command it decodes to. -/
def Obligations.LegalWordsSelectTheirRowAlone : Prop :=
  (∀ w : CmdWord, (∃ i, decode w = .ok i) ↔ ∃ r : Fin 9, (opcodeTable[r]).selects w = true) ∧
  ∀ (w : CmdWord) (i : Instr), decode w = .ok i → ∀ r : Fin 9, (opcodeTable[r]).selects w = true ↔ r = i.row

/-- R64: the illegal words are exactly those the rule lists. -/
def Obligations.IllegalWordsAreThoseOfTheRule : Prop :=
  ∀ w : CmdWord, (∃ e, decode w = .error e) ↔ IllegalWord w

/-! ### One step -/

/-- R41, R44: when the host's next transaction writes a word to CMD that decodes to a command, the step is that command's
`exec` on the state from which the transaction has been taken and the host's index has moved on by 1 (R16). Of the value
written only bits 15:0 are the word (R64). -/
def Obligations.StepRunsTheDecodedCommand : Prop :=
  ∀ (s : State) (v : Nat) (rest : List HostEvent) (i : Instr),
    s.pending = .wr 0x00 v :: rest → decode (BitVec.ofNat 16 v) = .ok i →
    step s = exec i { s with pending := rest, pc := s.pc + 1 }

/-- R41, R63: a command's own word, placed as the host's next transaction, runs that command. -/
def Obligations.FetchedWordRunsItsCommand : Prop :=
  ∀ (i : Instr) (s : State), step (s.withFetchWord 16 (encode i).toNat) = exec i { s with pc := s.pc + 1 }

/-- R64, R183: a WR to CMD of an illegal word completes with IllegalCommand: ERR = 4, STICKY = 1, ONC kept, and no register
is written. -/
def Obligations.IllegalWordCompletesWithCode4 : Prop :=
  ∀ (s : State) (v : Nat) (rest : List HostEvent),
    s.pending = .wr 0x00 v :: rest → IllegalWord (BitVec.ofNat 16 v) →
    ∃ t, step s = .next t ∧ StatusError 4 s t ∧ KeepsRegisters none none s t ∧
      t.pending = rest ∧ t.pc = s.pc + 1 ∧ t.responses = s.responses ∧ t.fresh = s.fresh

/-- R191: "between transactions it is idle and keeps all its registers". -/
def Obligations.IdleStepKeepsTheState : Prop :=
  ∀ s : State, s.pending = [] → step s = .next s

/-- R222: every command terminates and there is no stuck state: from every state, reachable or not, a step answers a next
state. -/
def Obligations.EveryStepAnswersNext : Prop :=
  ∀ s : State, ∃ t, step s = .next t

/-- R16, R152: every event moves the host's index on by exactly 1 whatever the completion code, no command changes the host's
list, and only a RD gives the host a value. (That a reset event counts in the index is log 12.) -/
def Obligations.StepTakesOneHostEvent : Prop :=
  ∀ (s : State) (e : HostEvent) (rest : List HostEvent) (t : State),
    s.pending = e :: rest → step s = .next t →
    t.pending = rest ∧ t.pc = s.pc + 1 ∧ t.geom = s.geom ∧
    t.responses = match e with
      | .rd sel => s.readSel (decodeSel sel) :: s.responses
      | .wr .. => s.responses
      | .reset => s.responses

/-! ### The host port -/

/-- R43, R49: a RD after a WR to the same read/write selector returns the written value cut to the register's width. -/
def Obligations.ReadAfterWriteReturnsTheValueCut : Prop :=
  ∀ (s : State) (r : Sel) (v : Nat) (rest : List HostEvent), r.isReadWrite = true →
    s.pending = .wr (encodeSel r) v :: .rd (encodeSel r) :: rest →
    ∃ t u, step s = .next t ∧ step t = .next u ∧ u.responses = v % 2 ^ r.width s.geom :: s.responses

/-- R10, R43: a WR sets the register or field it names and no other: no register aliases another. -/
def Obligations.WriteChangesOneRegister : Prop :=
  ∀ (s : State) (r : Sel) (v : Nat) (rest : List HostEvent), r.isReadWrite = true →
    s.pending = .wr (encodeSel r) v :: rest →
    ∃ t, step s = .next t ∧ t.readSel (some r) = v % 2 ^ r.width s.geom ∧
      (∀ r' : Sel, r' ≠ r → t.readSel (some r') = s.readSel (some r')) ∧
      t.geom = s.geom ∧ t.responses = s.responses ∧ t.fresh = s.fresh

/-- R45: a WR to STATUS or to a reserved selector changes no state; a RD of CMD or of a reserved selector returns 0; neither
changes STATUS. (The host's index and list move on, R16.) -/
def Obligations.ReservedSelectorsAreInert : Prop :=
  ∀ (s : State) (sel : Selector) (v : Nat) (rest : List HostEvent),
    (sel = 0x01 ∨ ReservedSelector sel → s.pending = .wr sel v :: rest →
      step s = .next { s with pending := rest, pc := s.pc + 1 }) ∧
    (sel = 0x00 ∨ ReservedSelector sel → s.pending = .rd sel :: rest →
      step s = .next { s with pending := rest, pc := s.pc + 1, responses := 0 :: s.responses })

/-- R42, R43: a RD by each selector of the map returns the register it names, and changes no state of the block. -/
def Obligations.ReadReturnsTheNamedRegister : Prop :=
  ∀ (s : State) (rest : List HostEvent) (i : FIdx) (n : PIdx) (sel : Selector) (v : Nat),
    (sel = 0x01 ∧ v = s.status.toNat ∨ sel = 0x02 ∧ v = s.ca ∨ sel = 0x03 ∧ v = s.cb ∨ sel = 0x04 ∧ v = s.cp ∨
      sel = 0x05 ∧ v = s.k ∨ sel.toNat = 0x10 + i ∧ v = s.readF i ∨ sel.toNat = 0x20 + 4 * n ∧ v = (s.pt[n]).x ∨
      sel.toNat = 0x21 + 4 * n ∧ v = (s.pt[n]).y ∨ sel.toNat = 0x22 + 4 * n ∧ v = (s.pt[n]).inf.toNat) →
    s.pending = .rd sel :: rest →
    step s = .next { s with pending := rest, pc := s.pc + 1, responses := v :: s.responses }

/-- R68: the pseudo-instructions, run to their end, do what their column "purpose" says: LDPT loads an affine point, LDINF
Infinity with X and Y kept, LDCURVE the parameters, RDPT returns INF, X and Y. -/
def Obligations.PseudoInstructionsDoTheirPurpose : Prop :=
  ∀ (s : State) (n : PIdx) (x y a b p : Nat) (rest : List HostEvent),
    (s.pending = (AsmLine.ldpt n x y).expand ++ rest → ∃ t, Sys2Proof.core.run 3 s = .next t ∧
      t = { s with pt := s.pt.set n ⟨false, x % 2 ^ s.geom.W, y % 2 ^ s.geom.W⟩, pending := rest, pc := s.pc + 3 }) ∧
    (s.pending = (AsmLine.ldinf n).expand ++ rest → ∃ t, Sys2Proof.core.run 1 s = .next t ∧
      t = { s with pt := s.pt.set n ⟨true, (s.pt[n]).x, (s.pt[n]).y⟩, pending := rest, pc := s.pc + 1 }) ∧
    (s.pending = (AsmLine.ldcurve a b p).expand ++ rest → ∃ t, Sys2Proof.core.run 3 s = .next t ∧
      t = { s with ca := a % 2 ^ s.geom.W, cb := b % 2 ^ s.geom.W, cp := p % 2 ^ s.geom.W, pending := rest,
                   pc := s.pc + 3 }) ∧
    (s.pending = (AsmLine.rdpt n).expand ++ rest → ∃ t, Sys2Proof.core.run 3 s = .next t ∧
      t = { s with pending := rest, pc := s.pc + 3,
                   responses := (s.pt[n]).y :: (s.pt[n]).x :: (s.pt[n]).inf.toNat :: s.responses })

/-! ### STATUS, errors and frames of every command -/

/-- R18: ERR is at most 3 after a command (4 is an illegal word's); STICKY becomes 1 exactly when ERR is written with a
non-zero code and 0 exactly on CLRERR; ONC is written by PCHK alone; the reserved bits by none (R17). -/
def Obligations.CommandsWriteTheFlagsOfRuleR18 : Prop :=
  ∀ (i : Instr) (s t : State), exec i s = .next t →
    (statusErr t.status).toNat ≤ 3 ∧
    (i ≠ .clrerr → statusSticky t.status = (statusSticky s.status || statusErr t.status != 0)) ∧
    (i = .clrerr → statusSticky t.status = false) ∧
    ((∀ ps1, i ≠ .pchk ps1) → statusOnc t.status = statusOnc s.status) ∧
    statusReserved t.status = statusReserved s.status

/-- R18: no command reads STATUS: from two states that differ in STATUS alone, a command gives states that differ in STATUS
alone, with the same ERR, and the same ONC if it is PCHK. -/
def Obligations.CommandsDoNotReadStatus : Prop :=
  ∀ (i : Instr) (s : State) (st : StatusWord), ∃ t u,
    exec i s = .next t ∧ exec i { s with status := st } = .next u ∧ u = { t with status := u.status } ∧
    statusErr u.status = statusErr t.status ∧
    ∀ ps1, i = .pchk ps1 → statusOnc u.status = statusOnc t.status

/-- R183, R184: a command that completes with a non-zero code has written no register but STATUS. Within the preconditions
this is the rules' own; for a point command outside `ParamCurve` it is the model's choice, log 6 (DEDUCED, unsafe), since 93 U2
and U3 allow there any code from 0 to 3 with any value in the destination. -/
def Obligations.ErrorsArePrecise : Prop :=
  ∀ (i : Instr) (s t : State), exec i s = .next t → statusErr t.status ≠ 0 → Frame none none s t

/-- R19, R152: a command changes at most its one destination register and STATUS; it changes nothing of the host's side. -/
def Obligations.CommandsWriteOnlyTheirDestination : Prop :=
  ∀ (i : Instr) (s t : State), exec i s = .next t → Frame (fieldDest i) (pointDest i) s t

/-- R180: "MONTMUL, MODADD, MODSUB, PCHK and CLRERR, when legal, always complete with code 0", in every state (outside their
preconditions this is the treatment of 93 U1 and U3 for the field commands, log 5, and log 7 for PCHK). -/
def Obligations.FieldAndControlCommandsCompleteWithZero : Prop :=
  ∀ (s : State) (fd fs1 fs2 : FIdx) (ps1 : PIdx) (i : Instr),
    i = .montmul fd fs1 fs2 ∨ i = .modadd fd fs1 fs2 ∨ i = .modsub fd fs1 fs2 ∨ i = .pchk ps1 ∨ i = .clrerr →
    ∃ t, exec i s = .next t ∧ statusErr t.status = 0

/-- R112, R122: under their preconditions PADD never raises NotOnCurveError and PDBL never raises EqualPointsError. -/
def Obligations.PaddAndPdblRaiseOnlyTheirErrors : Prop :=
  ∀ (s t : State) (pd ps1 ps2 : PIdx),
    (Precondition (.padd pd ps1 ps2) s → exec (.padd pd ps1 ps2) s = .next t →
      statusErr t.status = 0 ∨ statusErr t.status = 2 ∨ statusErr t.status = 3) ∧
    (Precondition (.pdbl pd ps1) s → exec (.pdbl pd ps1) s = .next t →
      statusErr t.status = 0 ∨ statusErr t.status = 1 ∨ statusErr t.status = 3)

/-- R2: under the command's precondition its completion code and its result (the value of the destination, or ONC of PCHK)
depend on its operands alone: two states that agree on them give the same. -/
def Obligations.ResultsDependOnOperandsAlone : Prop :=
  ∀ (i : Instr) (s t s' t' : State), SameOperands i s t → Precondition i s →
    exec i s = .next s' → exec i t = .next t' →
    statusErr s'.status = statusErr t'.status ∧
    (∀ fd, fieldDest i = some fd → s'.readF fd = t'.readF fd) ∧
    (∀ pd, pointDest i = some pd → statusErr s'.status = 0 → s'.readPt pd = t'.readPt pd) ∧
    (∀ ps1, i = .pchk ps1 → statusOnc s'.status = statusOnc t'.status)

/-! ### The field units -/

/-- R6: the field primitives on reduced operands, each result below p. -/
def Obligations.FieldPrimitivesAreModular : Prop :=
  ∀ u v p : Nat, u < p → v < p → 1 ≤ p →
    addm u v p = (u + v) % p ∧ ((subm u v p : Nat) : Int) = ((u : Int) - v) % p ∧ mulm u v p = u * v % p ∧
    addm u v p < p ∧ subm u v p < p ∧ mulm u v p < p

/-- R7: for an odd prime p, the inverse of 0 is an error, and the inverse of v, 0 < v < p, is the unique u with 1 <= u < p and
(u * v) mod p = 1, which is v^(p-2) mod p. -/
def Obligations.InverseIsUniqueOrRaises : Prop :=
  ∀ v p : Nat, p.Prime → p % 2 = 1 → v < p →
    (v = 0 → invm v p = .error .undefinedInverse) ∧
    (v ≠ 0 → ∃ u, invm v p = .ok u ∧ 1 ≤ u ∧ u < p ∧ u * v % p = 1 ∧ u = v ^ (p - 2) % p ∧
      ∀ w, 1 ≤ w → w < p → w * v % p = 1 → w = u)

/-- R8: the bit length and the bit test. -/
def Obligations.BitLengthAndBitTest : Prop :=
  ∀ k i : Nat,
    (k = 0 → numBits k = 0) ∧
    (k ≠ 0 → 1 ≤ numBits k ∧ 2 ^ (numBits k - 1) ≤ k ∧ k < 2 ^ numBits k ∧
      ∀ n, 1 ≤ n → 2 ^ (n - 1) ≤ k → k < 2 ^ n → n = numBits k) ∧
    (bit k i = true ↔ k / 2 ^ i % 2 = 1)

/-- R80, R81: under `ParamMont`, MONTMUL writes the unique r below CP with r * 2^W = u * v modulo CP, ERR <- 0, and nothing
else. -/
def Obligations.MontmulWritesTheMontgomeryProduct : Prop :=
  ∀ (s : State) (fd fs1 fs2 : FIdx), 1 ≤ s.cp → s.cp % 2 = 1 → s.readF fs1 < s.cp → s.readF fs2 < s.cp →
    ∃ t, exec (.montmul fd fs1 fs2) s = .next t ∧
      t.readF fd < s.cp ∧ t.readF fd * 2 ^ s.geom.W % s.cp = s.readF fs1 * s.readF fs2 % s.cp ∧
      (∀ r, r < s.cp → r * 2 ^ s.geom.W % s.cp = s.readF fs1 * s.readF fs2 % s.cp → r = t.readF fd) ∧
      StatusOk s t ∧ Frame (some fd) none s t ∧ t.fresh = s.fresh

/-- R92: under `ParamField`, MODADD writes (u + v) mod CP, ERR <- 0, and nothing else. -/
def Obligations.ModaddWritesTheSum : Prop :=
  ∀ (s : State) (fd fs1 fs2 : FIdx), 1 ≤ s.cp → s.readF fs1 < s.cp → s.readF fs2 < s.cp →
    ∃ t, exec (.modadd fd fs1 fs2) s = .next t ∧
      t.readF fd = (s.readF fs1 + s.readF fs2) % s.cp ∧
      StatusOk s t ∧ Frame (some fd) none s t ∧ t.fresh = s.fresh

/-- R93: under `ParamField`, MODSUB writes (u - v) mod CP, first source minus second, ERR <- 0, and nothing else. -/
def Obligations.ModsubWritesTheDifference : Prop :=
  ∀ (s : State) (fd fs1 fs2 : FIdx), 1 ≤ s.cp → s.readF fs1 < s.cp → s.readF fs2 < s.cp →
    ∃ t, exec (.modsub fd fs1 fs2) s = .next t ∧
      ((t.readF fd : Nat) : Int) = ((s.readF fs1 : Int) - s.readF fs2) % s.cp ∧
      StatusOk s t ∧ Frame (some fd) none s t ∧ t.fresh = s.fresh

/-- The model's choice, log 5, after 93 U1 and U3: a field command outside its precondition still completes with code 0; its
destination holds some W-bit value and nothing else is written. -/
def Obligations.FieldCommandsOutsideTheirPrecondition : Prop :=
  ∀ (s : State) (fd fs1 fs2 : FIdx) (i : Instr),
    i = .montmul fd fs1 fs2 ∨ i = .modadd fd fs1 fs2 ∨ i = .modsub fd fs1 fs2 → ¬ Precondition i s →
    ∃ t, exec i s = .next t ∧ t.readF fd < 2 ^ s.geom.W ∧ StatusOk s t ∧ Frame (some fd) none s t

/-- R82: the bit-serial algorithm computes the Montgomery product; its partial sum stays below 2p, and after n iterations
S * 2^n = u[n-1:0] * v modulo p. -/
def Obligations.BitSerialAlgorithmIsMontmul : Prop :=
  ∀ W u v p : Nat, p % 2 = 1 → u < p → v < p → p < 2 ^ W →
    montSerial W u v p = montmul W u v p ∧
    ∀ n, n ≤ W → montSerialSum p u v n < 2 * p ∧ montSerialSum p u v n * 2 ^ n % p = u % 2 ^ n * v % p

/-- R83: the identities (a) to (d), with R2 = 2^(2W) mod p. -/
def Obligations.MontgomeryFormIdentities : Prop :=
  ∀ W u v t p : Nat, p % 2 = 1 → u < p → v < p → t < p →
    let R2 := 2 ^ (2 * W) % p
    montmul W u R2 p = u * 2 ^ W % p ∧
    (montmul W t 1 p * 2 ^ W % p = t % p) ∧
    mulm u v p = montmul W (montmul W u v p) R2 p ∧
    montmul W (u * 2 ^ W % p) (v * 2 ^ W % p) p = u * v * 2 ^ W % p

/-- R91: addition and subtraction with one conditional correction compute what MODADD and MODSUB do. -/
def Obligations.OneCorrectionSuffices : Prop :=
  ∀ u v p : Nat, u < p → v < p → addCorrect u v p = addm u v p ∧ subCorrect u v p = subm u v p

/-! ### The point units -/

/-- R101, R102: under `ParamCurve`, PCHK sets ONC exactly for Infinity and for an affine pair with y² = x³ + a·x + b modulo
CP, ERR <- 0, STICKY kept, and writes no register. -/
def Obligations.PchkReportsTheCurveEquation : Prop :=
  ∀ (s : State) (ps1 : PIdx), CurveParams s.ca s.cb s.cp → (s.readPt ps1).reduced s.cp →
    ∃ t, exec (.pchk ps1) s = .next t ∧
      (statusOnc t.status = true ↔ match s.readPt ps1 with
        | .infinity => True
        | .affine x y => y * y % s.cp = (x * x * x + s.ca * x + s.cb) % s.cp) ∧
      statusErr t.status = 0 ∧ statusSticky t.status = statusSticky s.status ∧
      statusReserved t.status = statusReserved s.status ∧ Frame none none s t ∧ t.fresh = s.fresh

/-- R111, R112: where PADD completes with code 0: with an operand Infinity it writes the other operand; for vertical inverses
that are not the same point it writes Infinity; for different abscissas it writes the third point of the chord of slope lam,
negated. ERR <- 0 and nothing else is written. -/
def Obligations.PaddWritesTheSum : Prop :=
  ∀ (s : State) (pd ps1 ps2 : PIdx), s.cp.Prime → s.cp % 2 = 1 →
    (s.readPt ps1).reduced s.cp → (s.readPt ps2).reduced s.cp →
    (s.readPt ps1 = .infinity → ∃ t, exec (.padd pd ps1 ps2) s = .next t ∧ t.readPt pd = s.readPt ps2 ∧
      StatusOk s t ∧ Frame none (some pd) s t) ∧
    (s.readPt ps2 = .infinity → ∃ t, exec (.padd pd ps1 ps2) s = .next t ∧ t.readPt pd = s.readPt ps1 ∧
      StatusOk s t ∧ Frame none (some pd) s t) ∧
    ∀ xP yP xQ yQ : Nat, s.readPt ps1 = .affine xP yP → s.readPt ps2 = .affine xQ yQ →
      (xP = xQ → yP ≠ yQ → (yP + yQ) % s.cp = 0 → ∃ t, exec (.padd pd ps1 ps2) s = .next t ∧
        t.readPt pd = .infinity ∧ StatusOk s t ∧ Frame none (some pd) s t) ∧
      (xP ≠ xQ → ∃ t, exec (.padd pd ps1 ps2) s = .next t ∧ ∃ lam xR yR : Nat,
        t.readPt pd = .affine xR yR ∧ lam < s.cp ∧ xR < s.cp ∧ yR < s.cp ∧
        (lam : Int) * (xQ - xP) ≡ yQ - yP [ZMOD s.cp] ∧ (xR : Int) ≡ lam * lam - xP - xQ [ZMOD s.cp] ∧
        (yR : Int) ≡ lam * (xP - xR) - yP [ZMOD s.cp] ∧ StatusOk s t ∧ Frame none (some pd) s t)

/-- R111, R112, R183: where PADD raises: two operands that are the same affine point (also with y = 0, and also when they are
one register) give EqualPointsError, code 2; the same abscissa with ordinates neither equal nor opposite gives
UndefinedInverseError, code 3. No register is written. -/
def Obligations.PaddRaises : Prop :=
  ∀ (s : State) (pd ps1 ps2 : PIdx) (x yP yQ : Nat), s.cp.Prime → s.cp % 2 = 1 →
    (s.readPt ps1).reduced s.cp → (s.readPt ps2).reduced s.cp →
    s.readPt ps1 = .affine x yP → s.readPt ps2 = .affine x yQ →
    (yP = yQ → ∃ t, exec (.padd pd ps1 ps2) s = .next t ∧ StatusError 2 s t ∧ Frame none none s t) ∧
    (yP ≠ yQ → (yP + yQ) % s.cp ≠ 0 →
      ∃ t, exec (.padd pd ps1 ps2) s = .next t ∧ StatusError 3 s t ∧ Frame none none s t)

/-- R121, R122: where PDBL completes with code 0: Infinity doubles to Infinity; a point on the curve with y not 0 doubles to
the third point of its tangent of slope lam, negated. ERR <- 0 and nothing else is written. -/
def Obligations.PdblWritesTheDouble : Prop :=
  ∀ (s : State) (pd ps1 : PIdx), CurveParams s.ca s.cb s.cp → (s.readPt ps1).reduced s.cp →
    (s.readPt ps1 = .infinity → ∃ t, exec (.pdbl pd ps1) s = .next t ∧ t.readPt pd = .infinity ∧
      StatusOk s t ∧ Frame none (some pd) s t) ∧
    ∀ x y : Nat, s.readPt ps1 = .affine x y → y ≠ 0 → y * y % s.cp = (x * x * x + s.ca * x + s.cb) % s.cp →
      ∃ t, exec (.pdbl pd ps1) s = .next t ∧ ∃ lam xR yR : Nat,
        t.readPt pd = .affine xR yR ∧ lam < s.cp ∧ xR < s.cp ∧ yR < s.cp ∧
        (lam : Int) * (2 * y) ≡ 3 * x * x + s.ca [ZMOD s.cp] ∧ (xR : Int) ≡ lam * lam - 2 * x [ZMOD s.cp] ∧
        (yR : Int) ≡ lam * (x - xR) - y [ZMOD s.cp] ∧ StatusOk s t ∧ Frame none (some pd) s t

/-- R121, R122, R183, R185: where PDBL raises: off the curve, whatever y is, NotOnCurveError, code 1; on the curve with y = 0,
UndefinedInverseError, code 3. No register is written. -/
def Obligations.PdblRaises : Prop :=
  ∀ (s : State) (pd ps1 : PIdx) (x y : Nat), CurveParams s.ca s.cb s.cp → (s.readPt ps1).reduced s.cp →
    s.readPt ps1 = .affine x y →
    (y * y % s.cp ≠ (x * x * x + s.ca * x + s.cb) % s.cp →
      ∃ t, exec (.pdbl pd ps1) s = .next t ∧ StatusError 1 s t ∧ Frame none none s t) ∧
    (y * y % s.cp = (x * x * x + s.ca * x + s.cb) % s.cp → y = 0 →
      ∃ t, exec (.pdbl pd ps1) s = .next t ∧ StatusError 3 s t ∧ Frame none none s t)

/-- The model's choice, logs 6, 7 and 8, after 93 U2 and U3: outside its precondition a point command still completes. PCHK
leaves some ONC and code 0. The others complete with code 0 and some point with W-bit fields in the destination, or with a
code from 1 to 3 and no register written, also at CP = 0, where 93 U1 gives code 0 alone (log 6). -/
def Obligations.PointCommandsOutsideTheirPrecondition : Prop :=
  ∀ (s : State) (pd ps1 ps2 : PIdx) (i : Instr), ¬ Precondition i s →
    (i = .padd pd ps1 ps2 ∨ i = .pdbl pd ps1 ∨ i = .smulda pd ps1 ∨ i = .smulml pd ps1 →
      ∃ t, exec i s = .next t ∧
        (StatusOk s t ∧ (t.pt[pd]).x < 2 ^ s.geom.W ∧ (t.pt[pd]).y < 2 ^ s.geom.W ∧ Frame none (some pd) s t ∨
          ∃ c : BitVec 3, 1 ≤ c.toNat ∧ c.toNat ≤ 3 ∧ StatusError c s t ∧ Frame none none s t)) ∧
    (i = .pchk ps1 → ∃ t, exec i s = .next t ∧ statusErr t.status = 0 ∧
      statusSticky t.status = statusSticky s.status ∧ Frame none none s t)

/-- R162: commutativity in the strong form: the same point or the same error, on the curve or not. -/
def Obligations.AdditionCommutes : Prop :=
  ∀ (p : Nat) (P Q : Point), p.Prime → p % 2 = 1 → P.reduced p → Q.reduced p → add p P Q = add p Q P

/-- R161: doubling a point of the curve gives a point of the curve unless it raises, and it raises UndefinedInverseError
exactly for an affine point with y = 0; adding two points of the curve gives a point of the curve unless it raises. -/
def Obligations.AddAndDoubleStayOnTheCurve : Prop :=
  ∀ (a b p : Nat) (P Q : Point), CurveParams a b p → P.reduced p → Q.reduced p →
    isOnCurve a b p P = true → isOnCurve a b p Q = true →
    (∀ R, double a b p P = .ok R → isOnCurve a b p R = true) ∧
    (∀ e, double a b p P = .error e ↔ e = .undefinedInverse ∧ ∃ x, P = .affine x 0) ∧
    (∀ R, add p P Q = .ok R → isOnCurve a b p R = true)

/-- R163: associativity, when none of the four calls raises. -/
def Obligations.AdditionAssociates : Prop :=
  ∀ (a b p : Nat) (P Q R S T L M : Point), CurveParams a b p → NonSingular a b p →
    P.reduced p → Q.reduced p → R.reduced p →
    isOnCurve a b p P = true → isOnCurve a b p Q = true → isOnCurve a b p R = true →
    add p P Q = .ok S → add p S R = .ok L → add p Q R = .ok T → add p P T = .ok M → L = M

/-! ### The scalar multipliers -/

/-- R131: SMULDA writes the value of `scalarMulDoubleAndAdd` on the operands, ERR <- 0; or completes with the error that ended
it and writes no register. K = 0 does not examine the point (log 8). -/
def Obligations.SmuldaCompletesAsDoubleAndAdd : Prop :=
  ∀ (s : State) (pd ps1 : PIdx), CurveParams s.ca s.cb s.cp → ((s.readPt ps1).reduced s.cp ∨ s.k = 0) →
    (∀ R, scalarMulDoubleAndAdd s.ca s.cb s.cp (s.readPt ps1) s.k = .ok R →
      ∃ t, exec (.smulda pd ps1) s = .next t ∧ t.readPt pd = R ∧ StatusOk s t ∧ Frame none (some pd) s t) ∧
    (∀ e, scalarMulDoubleAndAdd s.ca s.cb s.cp (s.readPt ps1) s.k = .error e →
      ∃ t, exec (.smulda pd ps1) s = .next t ∧ StatusError e.code s t ∧ Frame none none s t)

/-- R141: SMULML writes the value of `scalarMulLadder` on the operands, ERR <- 0; or completes with the error that ended it
and writes no register. K = 0 does not examine the point (log 8). -/
def Obligations.SmulmlCompletesAsLadder : Prop :=
  ∀ (s : State) (pd ps1 : PIdx), CurveParams s.ca s.cb s.cp → ((s.readPt ps1).reduced s.cp ∨ s.k = 0) →
    (∀ R, scalarMulLadder s.ca s.cb s.cp (s.readPt ps1) s.k = .ok R →
      ∃ t, exec (.smulml pd ps1) s = .next t ∧ t.readPt pd = R ∧ StatusOk s t ∧ Frame none (some pd) s t) ∧
    (∀ e, scalarMulLadder s.ca s.cb s.cp (s.readPt ps1) s.k = .error e →
      ∃ t, exec (.smulml pd ps1) s = .next t ∧ StatusError e.code s t ∧ Frame none none s t)

/-- R165 (a), R131, R141: with K = 0 both commands write Infinity, whatever the point register holds, ERR <- 0.
That this takes in a point with a coordinate not below CP is the model's reading, log 8 (DEDUCED, unsafe there): 93 U3 read alone
would allow any result. -/
def Obligations.ScalarZeroGivesInfinity : Prop :=
  ∀ (s : State) (pd ps1 : PIdx) (i : Instr), i = .smulda pd ps1 ∨ i = .smulml pd ps1 →
    CurveParams s.ca s.cb s.cp → s.k = 0 →
    ∃ t, exec i s = .next t ∧ t.readPt pd = .infinity ∧ StatusOk s t ∧ Frame none (some pd) s t

/-- R165 (b): with k = 1 both algorithms return P when P is Infinity or on the curve with y not 0; both raise
UndefinedInverseError when P is on the curve with y = 0, and NotOnCurveError when P is off the curve. -/
def Obligations.ScalarOneGivesThePointOrRaises : Prop :=
  ∀ (a b p : Nat) (P : Point) (mul : Nat → Nat → Nat → Point → Nat → Except ErrorKind Point),
    mul = scalarMulDoubleAndAdd ∨ mul = scalarMulLadder → CurveParams a b p → P.reduced p →
    (isOnCurve a b p P = true → (∀ x, P ≠ .affine x 0) → mul a b p P 1 = .ok P) ∧
    (isOnCurve a b p P = true → (∃ x, P = .affine x 0) → mul a b p P 1 = .error .undefinedInverse) ∧
    (isOnCurve a b p P = false → mul a b p P 1 = .error .notOnCurve)

/-- R168: on a valid curve, for P on the curve or Infinity, whenever either multiplication returns a point, it is k·P in the
group of the curve. -/
def Obligations.ScalarMultiplicationIsTheGroupMultiple : Prop :=
  ∀ (a b p : Nat) [Fact p.Prime] (P : Point), CurveParams a b p → NonSingular a b p → P.reduced p →
    isOnCurve a b p P = true →
    ∃ A : (curveOf a b p).Point, Represents P A ∧ ∀ (k : Nat) (R : Point),
      (scalarMulDoubleAndAdd a b p P k = .ok R → Represents R (k • A)) ∧
      (scalarMulLadder a b p P k = .ok R → Represents R (k • A))

/-- R164: on a valid curve, for P on the curve or Infinity and any k, if neither algorithm raises both return the same
point. -/
def Obligations.TheTwoMultipliersAgree : Prop :=
  ∀ (a b p k : Nat) (P R R' : Point), CurveParams a b p → NonSingular a b p → P.reduced p → isOnCurve a b p P = true →
    scalarMulDoubleAndAdd a b p P k = .ok R → scalarMulLadder a b p P k = .ok R' → R = R'

/-- R166: on a valid curve, for P of odd order (Infinity has order 1), the ladder raises no error for any k and returns k·P;
double-and-add raises none for k below the order. -/
def Obligations.LadderIsTotalOnOddOrder : Prop :=
  ∀ (a b p : Nat) [Fact p.Prime] (P : Point) (A : (curveOf a b p).Point), CurveParams a b p → NonSingular a b p →
    P.reduced p → Represents P A → addOrderOf A % 2 = 1 →
    (∀ k, ∃ R, scalarMulLadder a b p P k = .ok R ∧ Represents R (k • A)) ∧
    (∀ k, k < addOrderOf A → ∃ R, scalarMulDoubleAndAdd a b p P k = .ok R)

/-- R141, R180: on a valid curve the ladder never raises EqualPointsError, for any point and any scalar. -/
def Obligations.LadderNeverRaisesEqualPoints : Prop :=
  ∀ (a b p k : Nat) (P : Point), CurveParams a b p → NonSingular a b p → P.reduced p →
    scalarMulLadder a b p P k ≠ .error .equalPoints

/-- R140: any number of leading zero bits leaves the ladder's result and its error unchanged, so where the scan starts
cannot be seen. -/
def Obligations.LadderIgnoresLeadingZeros : Prop :=
  ∀ (a b p n : Nat) (P : Point) (bits : List Bool),
    ladderBits a b p P (List.replicate n false ++ bits) = ladderBits a b p P bits

/-- R167: on a valid curve, when none of the calls raises, the ladder with k = 5 gives the double of the double of P added
to P. -/
def Obligations.LadderOfFiveIsTheScenario : Prop :=
  ∀ (a b p : Nat) (P D DD R R' : Point), CurveParams a b p → NonSingular a b p → P.reduced p → isOnCurve a b p P = true →
    scalarMulLadder a b p P 5 = .ok R → double a b p P = .ok D → double a b p D = .ok DD → add p DD P = .ok R' → R = R'

/-- R131, R142, R221: the counting versions compute the same results, and when no error occurs the ladder makes numBits(k)
calls of `add` and of `double`, and double-and-add numBits(k) calls of `double` and as many of `add` as k has set bits. -/
def Obligations.PointOperationCounts : Prop :=
  ∀ (a b p k : Nat) (P : Point),
    countedLadder a b p P k = (scalarMulLadder a b p P k).map (fun R => (R, ⟨numBits k, numBits k⟩)) ∧
    countedDoubleAndAdd a b p P k =
      (scalarMulDoubleAndAdd a b p P k).map (fun R => (R, ⟨hammingWeight k, numBits k⟩))

/-! ### Control, reset, invariant -/

/-- R150: CLRERR clears STICKY and ERR, keeps ONC, and reads and writes no data register. -/
def Obligations.ClrerrClearsTheErrorRecord : Prop :=
  ∀ s : State, ∃ t, exec .clrerr s = .next t ∧ statusErr t.status = 0 ∧ statusSticky t.status = false ∧
    statusOnc t.status = statusOnc s.status ∧ statusReserved t.status = statusReserved s.status ∧
    Frame none none s t ∧ t.fresh = s.fresh

/-- R21: after reset STATUS = 0x00: ERR = 0, STICKY = 0, ONC = 0, reserved bits 0; for every width. (That no event is pending
is log 10; the values of the other registers are log 3 and are not stated.) -/
def Obligations.ResetLeavesStatusZero : Prop :=
  ∀ g : Config.Geometry, (State.resetOf g).status = 0x00 ∧ statusErr (State.resetOf g).status = 0 ∧
    statusSticky (State.resetOf g).status = false ∧ statusOnc (State.resetOf g).status = false ∧
    statusReserved (State.resetOf g).status = 0 ∧ State.reset.status = 0x00

/-- R200, R21: a reset event leaves STATUS = 0x00 and every other register some value of its width (free values, log 12), and
the widths as they were. -/
def Obligations.ResetEventClearsStatus : Prop :=
  ∀ (s : State) (rest : List HostEvent), s.pending = .reset :: rest → s.geom.Valid →
    ∃ t, step s = .next t ∧ t.status = 0x00 ∧ t.geom = s.geom ∧ t.responses = s.responses ∧ t.Wf

/-- The invariant `State.Wf` holds at reset, for every legal pair of widths. (R21, with the model's reset values, log 3.) -/
def Obligations.ResetStateIsWellFormed : Prop :=
  (∀ g : Config.Geometry, g.Valid → (State.resetOf g).Wf) ∧ State.reset.Wf

/-- R94, R17, R18 with 93 U6: every step keeps the invariant: each register stays below 2 to its width, ERR is at most 4,
the reserved bits read 0, and a non-zero ERR goes with STICKY. -/
def Obligations.EveryStepKeepsTheInvariant : Prop :=
  ∀ s t : State, s.Wf → step s = .next t → t.Wf
end

