-- ==== Sys2Proof/Laws/Decode.lean ====
section
/-! SUPPORT. The fields of a command's word, and the index readers on the fields a command has. -/

namespace Sys2Proof

/-- The fields of the word of a quadruple are the quadruple's. -/
theorem wordFields_toWord (c : Fields) : wordFields c.toWord = c := by
  unfold wordFields Fields.toWord
  congr 1 <;> (ext i hi; simp (disch := omega); try omega)

/-- The fields of an encoded command are the command's. -/
@[simp] theorem wordFields_encode (i : Instr) : wordFields (encode i) = i.fields := wordFields_toWord i.fields

/-- A word is the word of its fields. -/
theorem toWord_wordFields (w : CmdWord) : (wordFields w).toWord = w := by
  unfold wordFields Fields.toWord
  ext i hi
  simp (disch := omega)
  rcases Nat.lt_or_ge i 4 with h | h
  · simp [h, show i < 12 by omega, show i < 8 by omega]
  · rcases Nat.lt_or_ge i 8 with h1 | h1
    · simp [show i < 12 by omega, h1, h, show ¬ i < 4 by omega, show i - 4 < 4 by omega]
    · rcases Nat.lt_or_ge i 12 with h2 | h2
      · simp [h2, show ¬ i < 8 by omega, show ¬ i - 4 < 4 by omega, show ¬ i < 4 by omega, show i - 8 < 4 by omega]
        congr 1; omega
      · simp [show ¬ i < 12 by omega, show ¬ i < 8 by omega, show ¬ i - 4 < 4 by omega, show ¬ i < 4 by omega,
          show ¬ i - 8 < 4 by omega]
        congr 1; omega

@[simp] theorem fieldIndex_ofNat (i : FIdx) : fieldIndex (BitVec.ofNat 4 i) = .ok i := by revert i; decide

@[simp] theorem pointIndex_ofNat (n : PIdx) : pointIndex (BitVec.ofNat 4 n) = .ok n := by revert n; decide

@[simp] theorem mustBeZero_zero : mustBeZero 0 = .ok () := rfl

/-- A field that reads as a field register index is that index. -/
theorem ofNat_of_fieldIndex {v : Nibble} {i : FIdx} (h : fieldIndex v = .ok i) : BitVec.ofNat 4 i = v := by
  unfold fieldIndex at h
  split at h
  · cases h; simp
  · cases h

/-- A field that reads as a point register index is that index. -/
theorem ofNat_of_pointIndex {v : Nibble} {n : PIdx} (h : pointIndex v = .ok n) : BitVec.ofNat 4 n = v := by
  unfold pointIndex at h
  split at h
  · cases h; simp
  · cases h

/-- A field that passes the check for 0 is 0. -/
theorem eq_zero_of_mustBeZero {v : Nibble} (h : mustBeZero v = .ok ()) : v = 0 := by
  unfold mustBeZero at h
  split at h
  · next h0 => exact BitVec.eq_of_toNat_eq h0
  · cases h

end Sys2Proof
end

