-- ==== Sys2Proof/Laws/Field.lean ====
section
/-! SUPPORT. What the field primitives compute: reduction, powers by repeated squaring, and that `oddPrime` is exactly
primality and oddness, with the certificates of the two primes it answers at once. -/

namespace Sys2Proof.Machine

/-! ### Reduction -/

theorem modp_lt {p : Nat} (hp : 0 < p) (z : Int) : modp z p < p := by
  have h0 := Int.emod_nonneg z (b := (p : Int)) (by omega)
  have h1 := Int.emod_lt_of_pos z (b := (p : Int)) (by omega)
  unfold modp
  omega

theorem modp_cast {p : Nat} (hp : 0 < p) (z : Int) : (modp z p : Int) = z % p := by
  have h0 := Int.emod_nonneg z (b := (p : Int)) (by omega)
  unfold modp
  omega

/-- Reduction is a ring homomorphism: the value of `modp z p` in the integers modulo p is that of z. -/
theorem modp_zmod {p : Nat} (hp : 0 < p) (z : Int) : ((modp z p : Nat) : ZMod p) = (z : ZMod p) := by
  have h : ((modp z p : Nat) : ZMod p) = (((modp z p : Nat) : Int) : ZMod p) := by push_cast; rfl
  rw [h, modp_cast hp, ZMod.intCast_mod]

theorem modp_ofNat (n p : Nat) : modp (n : Int) p = n % p := by
  unfold modp
  omega

/-! ### Powers -/

theorem powmBits_eq (p : Nat) : ∀ (n b e : Nat), e < 2 ^ n → powmBits p n b e = b ^ e % p
  | 0, b, e, h => by
    have : e = 0 := by simpa using h
    simp [powmBits, this]
  | n + 1, b, e, h => by
    have ih := powmBits_eq p n (b * b % p) (e / 2) (by rw [pow_succ] at h; omega)
    have sq : (b * b % p) ^ (e / 2) % p = b ^ (2 * (e / 2)) % p := by
      rw [← Nat.pow_mod, pow_mul, pow_two]
    unfold powmBits
    split
    · next ho =>
      rw [ih, sq, ← Nat.mul_mod_mod, Nat.mod_mod, Nat.mul_mod_mod, ← pow_succ']
      congr 2
      omega
    · next he =>
      rw [ih, sq]
      congr 2
      omega

/-- The bit length bounds the number. -/
theorem lt_two_pow_numBits (k : Nat) : k < 2 ^ numBits k := by
  unfold numBits
  split
  · next h => simp [h]
  · exact Nat.lt_log2_self

theorem powm_eq (b e p : Nat) : powm b e p = b ^ e % p := by
  rw [powm, powmBits_eq p _ _ _ (lt_two_pow_numBits e), ← Nat.pow_mod]

/-! ### The inverse of 2^W -/

/-- For odd p, `montRinv W p` is the inverse of 2^W modulo p (40_montgomery_mult.md rule R80). -/
theorem montRinv_mul {W p : Nat} (hp : p % 2 = 1) : montRinv W p * 2 ^ W % p = 1 % p := by
  have half : (p + 1) / 2 * 2 % p = 1 % p := by
    rw [show (p + 1) / 2 * 2 = p + 1 by omega, Nat.add_mod_left]
  rw [montRinv, powm_eq, Nat.mod_mul_mod, ← mul_pow, Nat.pow_mod, half, ← Nat.pow_mod, one_pow]

/-! ### Primality -/

/-- The trial division finds an odd divisor between `d` and the square root, if there is one. -/
theorem noOddDivisor_iff {p : Nat} (hp : p % 2 = 1) : ∀ (n d : Nat), d % 2 = 1 → 3 ≤ d → p ≤ d + 2 * n →
    (noOddDivisor p n d = true ↔ ∀ m, d ≤ m → m * m ≤ p → ¬ m ∣ p ∨ m % 2 = 0)
  | 0, d, hd, h3, hn => by
    simp only [noOddDivisor, true_iff]
    intro m hm hmm
    exact absurd hmm (by nlinarith)
  | n + 1, d, hd, h3, hn => by
    have ih := noOddDivisor_iff hp n (d + 2) (by omega) (by omega) (by omega)
    unfold noOddDivisor
    split
    · next hlt =>
      simp only [true_iff]
      intro m hm hmm
      exact absurd hmm (by nlinarith)
    · next hge =>
      simp only [Bool.and_eq_true, bne_iff_ne, ne_eq, ih]
      constructor
      · rintro ⟨hnd, hall⟩ m hm hmm
        rcases Nat.lt_trichotomy m d with h | h | h
        · omega
        · subst h
          exact .inl fun hdvd => hnd (Nat.mod_eq_zero_of_dvd hdvd)
        · rcases Nat.lt_or_ge m (d + 2) with h2 | h2
          · exact .inr (by omega)
          · exact hall m h2 hmm
      · intro hall
        refine ⟨fun hmod => ?_, fun m hm hmm => hall m (by omega) hmm⟩
        rcases hall d le_rfl (by omega) with h | h
        · exact h (Nat.dvd_of_mod_eq_zero hmod)
        · omega

theorem trialOddPrime_iff (p : Nat) : trialOddPrime p = true ↔ p.Prime ∧ p % 2 = 1 := by
  unfold trialOddPrime
  simp only [Bool.and_eq_true, decide_eq_true_eq, beq_iff_eq]
  constructor
  · rintro ⟨⟨h3, hodd⟩, hdiv⟩
    rw [noOddDivisor_iff hodd p 3 (by omega) (by omega) (by omega)] at hdiv
    refine ⟨?_, hodd⟩
    rw [Nat.prime_def_le_sqrt]
    refine ⟨by omega, fun m hm hsq hdvd => ?_⟩
    have hmodd : m % 2 = 1 := by
      rcases Nat.even_or_odd m with he | ho
      · have := Nat.mod_eq_zero_of_dvd (he.two_dvd.trans hdvd)
        omega
      · exact Nat.odd_iff.mp ho
    rcases hdiv m (by omega) (Nat.le_sqrt.mp hsq) with h | h
    · exact h hdvd
    · omega
  · rintro ⟨hp, hodd⟩
    have h3 : 3 ≤ p := by
      have := hp.two_le
      omega
    refine ⟨⟨h3, hodd⟩, ?_⟩
    rw [noOddDivisor_iff hodd p 3 (by omega) (by omega) (by omega)]
    intro m hm hmm
    refine .inl fun hdvd => ?_
    rcases (Nat.dvd_prime hp).mp hdvd with h | h
    · omega
    · subst h
      nlinarith

/-! ### Certificates for the two primes that `oddPrime` answers at once -/

/-- Lucas's criterion, in terms the kernel evaluates: `a` has order p - 1 modulo p. -/
theorem prime_of_certificate (p a : Nat) (qs : List Nat) (hp : 1 < p) (hqs : ∀ q ∈ qs, q.Prime)
    (hprod : qs.prod = p - 1) (hone : powm a (p - 1) p = 1) (hne : ∀ q ∈ qs, powm a ((p - 1) / q) p ≠ 1) : p.Prime := by
  have cast (e : Nat) : ((a : ZMod p) ^ e = 1) ↔ powm a e p = 1 := by
    rw [powm_eq, ← Nat.cast_pow, ← Nat.cast_one (R := ZMod p), ZMod.natCast_eq_natCast_iff', Nat.mod_eq_of_lt hp]
  refine lucas_primality p (a : ZMod p) ((cast _).mpr hone) fun q hq hdvd h => ?_
  obtain ⟨r, hr, hqr⟩ := (hq.prime.dvd_prod_iff).mp (hprod ▸ hdvd)
  exact hne q ((Nat.prime_dvd_prime_iff_eq hq (hqs r hr)).mp hqr ▸ hr) ((cast _).mp h)

theorem prime_primeE3 : primeE3.Prime := by
  have q1 : Nat.Prime 22605091 := by norm_num
  refine prime_of_certificate _ 2 [2, 5, 19, 22605091] (by decide) ?_ (by decide) (by decide +kernel) (by decide +kernel)
  simp only [List.forall_mem_cons, q1]
  norm_num

theorem prime_factor_a : Nat.Prime 173378833005251801 := by
  refine prime_of_certificate _ 6 [2, 2, 2, 5, 5, 2621, 24809, 13331831] (by decide) ?_ (by decide) (by decide +kernel)
    (by decide +kernel)
  simp only [List.forall_mem_cons]
  norm_num

theorem prime_factor_b : Nat.Prime 132896956044521568488119 := by
  have q : Nat.Prime 22149492674086928081353 := by
    refine prime_of_certificate _ 5 [2, 2, 2, 3, 5323, 173378833005251801] (by decide) ?_ (by decide) (by decide +kernel)
      (by decide +kernel)
    simp only [List.forall_mem_cons, prime_factor_a]
    norm_num
  refine prime_of_certificate _ 6 [2, 3, 22149492674086928081353] (by decide) ?_ (by decide) (by decide +kernel)
    (by decide +kernel)
  simp only [List.forall_mem_cons, q]
  norm_num

theorem prime_factor_c : Nat.Prime 255515944373312847190720520512484175977 := by
  have q : Nat.Prime 107590001 := by norm_num
  refine prime_of_certificate _ 3 [2, 2, 2, 7, 7, 11, 1627, 2657, 4423, 41201, 96557, 7240687, 107590001] (by decide) ?_
    (by decide) (by decide +kernel) (by decide +kernel)
  simp only [List.forall_mem_cons, q]
  norm_num

theorem prime_factor_d : Nat.Prime 205115282021455665897114700593932402728804164701536103180137503955397371 := by
  refine prime_of_certificate _ 10 [2, 3, 5, 29, 29, 31, 7723, 132896956044521568488119,
    255515944373312847190720520512484175977] (by decide) ?_ (by decide) (by decide +kernel) (by decide +kernel)
  simp only [List.forall_mem_cons, prime_factor_b, prime_factor_c]
  norm_num

theorem prime_primeE4 : primeE4.Prime := by
  refine prime_of_certificate _ 3 [2, 3, 7, 13441,
    205115282021455665897114700593932402728804164701536103180137503955397371] (by decide) ?_ (by decide) (by decide +kernel)
    (by decide +kernel)
  simp only [List.forall_mem_cons, prime_factor_d]
  norm_num

/-- `oddPrime` is primality and oddness, for every number: the two answered at once change nothing (log 13). -/
theorem oddPrime_iff (p : Nat) : oddPrime p = true ↔ p.Prime ∧ p % 2 = 1 := by
  unfold oddPrime
  simp only [Bool.or_eq_true, beq_iff_eq, trialOddPrime_iff]
  constructor
  · rintro ((h | h) | h)
    · exact h ▸ ⟨prime_primeE3, by decide⟩
    · exact h ▸ ⟨prime_primeE4, by decide⟩
    · exact h
  · exact .inr

/-! ### The field units -/

theorem addm_lt {p : Nat} (hp : 0 < p) (u v : Nat) : addm u v p < p := Nat.mod_lt _ hp

theorem subm_lt {p : Nat} (hp : 0 < p) (u v : Nat) : subm u v p < p := modp_lt hp _

theorem modaddsub_lt {p : Nat} (hp : 0 < p) (u v : Nat) (sub : Bool) : modaddsub u v p sub < p := by
  cases sub
  · exact addm_lt hp u v
  · exact subm_lt hp u v

theorem montmul_lt {p : Nat} (hp : 0 < p) (W u v : Nat) : montmul W u v p < p := Nat.mod_lt _ hp

theorem powm_lt {p : Nat} (hp : 0 < p) (b e : Nat) : powm b e p < p := by
  rw [powm_eq]
  exact Nat.mod_lt _ hp

end Sys2Proof.Machine
end

