-- ==== Sys2Proof/Laws/Flags.lean ====
section
/-! SUPPORT. Each field of STATUS after each way of writing it. -/

namespace Sys2Proof.Machine

variable (st : StatusWord) (c : BitVec 3) (b : Bool) (e : ErrorKind)

@[simp] theorem err_withErr : statusErr (statusWithErr st c) = c := by
  revert st c; unfold statusErr statusWithErr; decide +kernel

@[simp] theorem sticky_withErr : statusSticky (statusWithErr st c) = statusSticky st := by
  revert st c; unfold statusSticky statusWithErr; decide +kernel

@[simp] theorem onc_withErr : statusOnc (statusWithErr st c) = statusOnc st := by
  revert st c; unfold statusOnc statusWithErr; decide +kernel

@[simp] theorem reserved_withErr : statusReserved (statusWithErr st c) = statusReserved st := by
  revert st c; unfold statusReserved statusWithErr; decide +kernel

@[simp] theorem err_withSticky : statusErr (statusWithSticky st b) = statusErr st := by
  revert st b; unfold statusErr statusWithSticky; decide +kernel

@[simp] theorem sticky_withSticky : statusSticky (statusWithSticky st b) = b := by
  revert st b; unfold statusSticky statusWithSticky; decide +kernel

@[simp] theorem onc_withSticky : statusOnc (statusWithSticky st b) = statusOnc st := by
  revert st b; unfold statusOnc statusWithSticky; decide +kernel

@[simp] theorem reserved_withSticky : statusReserved (statusWithSticky st b) = statusReserved st := by
  revert st b; unfold statusReserved statusWithSticky; decide +kernel

@[simp] theorem err_withOnc : statusErr (statusWithOnc st b) = statusErr st := by
  revert st b; unfold statusErr statusWithOnc; decide +kernel

@[simp] theorem sticky_withOnc : statusSticky (statusWithOnc st b) = statusSticky st := by
  revert st b; unfold statusSticky statusWithOnc; decide +kernel

@[simp] theorem onc_withOnc : statusOnc (statusWithOnc st b) = b := by
  revert st b; unfold statusOnc statusWithOnc; decide +kernel

@[simp] theorem reserved_withOnc : statusReserved (statusWithOnc st b) = statusReserved st := by
  revert st b; unfold statusReserved statusWithOnc; decide +kernel

/-! ### The two completions -/

@[simp] theorem err_afterOk : statusErr (statusAfterOk st) = 0 := by simp [statusAfterOk]
@[simp] theorem sticky_afterOk : statusSticky (statusAfterOk st) = statusSticky st := by simp [statusAfterOk]
@[simp] theorem onc_afterOk : statusOnc (statusAfterOk st) = statusOnc st := by simp [statusAfterOk]
@[simp] theorem reserved_afterOk : statusReserved (statusAfterOk st) = statusReserved st := by simp [statusAfterOk]
@[simp] theorem err_afterError : statusErr (statusAfterError st e) = e.code := by simp [statusAfterError]
@[simp] theorem sticky_afterError : statusSticky (statusAfterError st e) = true := by simp [statusAfterError]
@[simp] theorem onc_afterError : statusOnc (statusAfterError st e) = statusOnc st := by simp [statusAfterError]
@[simp] theorem reserved_afterError : statusReserved (statusAfterError st e) = statusReserved st := by
  simp [statusAfterError]

theorem code_ne_zero : e.code ≠ 0 := by cases e <;> decide

theorem code_le_four : e.code.toNat ≤ 4 := by cases e <;> decide

/-- The error of a free completion code is one of the three arithmetic errors, with that code. -/
theorem errorOfCode_some {c : Fin 4} {e : ErrorKind} (h : errorOfCode c = some e) :
    e ≠ .illegalCommand ∧ e.code.toNat = c.val := by
  revert h; revert c; cases e <;> decide

end Sys2Proof.Machine
end

