-- ==== Sys2Proof/Laws/Operands.lean ====
section
/-! SUPPORT. Selectors, and that the point functions give reduced results. -/

namespace Sys2Proof.Machine

/-- Every register's selector names that register (20_memory.md rule R42). -/
theorem decodeSel_encodeSel (r : Sel) : decodeSel (encodeSel r) = some r := by
  cases r with
  | cmd | status | ca | cb | cp | k => rfl
  | f i => revert i; decide
  | ptX n | ptY n | ptInf n => revert n; decide

theorem chordPoint_reduced {p : Nat} (hp : 0 < p) (lam x1 y1 x2 : Nat) :
    (chordPoint p lam x1 y1 x2).reduced p = true := by
  simp [chordPoint, Point.reduced, modp_lt hp]

/-- The point adder's result is reduced when its operands are (10_state.md rule R12, 70_reset_and_hazards.md rule R214). -/
theorem add_reduced {p : Nat} (hp : 0 < p) {P Q R : Point} (hP : P.reduced p = true) (hQ : Q.reduced p = true)
    (h : add p P Q = .ok R) : R.reduced p = true := by
  unfold add at h
  split at h
  · cases h; exact hQ
  · split at h
    · cases h; exact hP
    · split at h
      · cases h
      · split at h
        · cases h; rfl
        · split at h
          · cases h
          · cases h; exact chordPoint_reduced hp ..

/-- The point doubler's result is reduced. -/
theorem double_reduced {a b p : Nat} (hp : 0 < p) {P R : Point} (h : double a b p P = .ok R) : R.reduced p = true := by
  unfold double at h
  split at h
  · cases h; rfl
  · split at h
    · split at h
      · cases h
      · cases h; exact chordPoint_reduced hp ..
    · cases h

end Sys2Proof.Machine
end

