-- ==== Sys2Proof/Laws/Group.lean ====
section
/-! SUPPORT. The point units beside the group of the curve: reduced coordinates are faithful, `invm` is the inverse of the field
of p elements, and `add` and `double` compute the group law where they do not raise (93_implementation_defined.md G3, G4). -/

namespace Sys2Proof.Machine

open WeierstrassCurve

variable {a b p : Nat}

/-! ### Residues -/

theorem cast_inj_of_lt {u v : Nat} (hu : u < p) (hv : v < p) : (u : ZMod p) = v ↔ u = v := by
  rw [ZMod.natCast_eq_natCast_iff', Nat.mod_eq_of_lt hu, Nat.mod_eq_of_lt hv]

theorem mod_eq_iff_cast {u v : Nat} : u % p = v % p ↔ (u : ZMod p) = v := (ZMod.natCast_eq_natCast_iff' ..).symm

theorem cast_mod (u : Nat) : ((u % p : Nat) : ZMod p) = u := ZMod.natCast_mod u p

theorem two_ne_zero_zmod [hp : Fact p.Prime] (h2 : p % 2 = 1) : (2 : ZMod p) ≠ 0 := by
  intro h
  have hdvd : p ∣ 2 := (ZMod.natCast_eq_zero_iff 2 p).mp (by exact_mod_cast h)
  have hle := Nat.le_of_dvd (by norm_num) hdvd
  have hge := hp.out.two_le
  omega

/-- `invm` of a non-zero residue is the inverse in the field (00_scope.md rule R7). -/
theorem invm_ok [hp : Fact p.Prime] {v : Nat} (h0 : v ≠ 0) (hv : v < p) :
    ∃ u, invm v p = .ok u ∧ u < p ∧ (u : ZMod p) = (v : ZMod p)⁻¹ := by
  refine ⟨powm v (p - 2) p, by simp [invm, h0], powm_lt hp.out.pos _ _, ?_⟩
  have hne : (v : ZMod p) ≠ 0 := by
    have := (cast_inj_of_lt hv hp.out.pos).not.mpr h0
    simpa using this
  rw [powm_eq, cast_mod, Nat.cast_pow]
  have hfermat := ZMod.pow_card_sub_one_eq_one hne
  have hsplit : p - 1 = p - 2 + 1 := by have := hp.out.two_le; omega
  rw [hsplit, pow_succ] at hfermat
  exact eq_inv_of_mul_eq_one_left hfermat

/-! ### Points and elements of the group -/

theorem reduced_affine {x y : Nat} : (Point.affine x y).reduced p = true ↔ x < p ∧ y < p := by simp [Point.reduced]

/-- On a non-singular curve over an odd prime the discriminant does not vanish. -/
theorem discriminant_ne_zero [Fact p.Prime] (h2 : p % 2 = 1) (hns : NonSingular a b p) : (curveOf a b p).Δ ≠ 0 := by
  have h4 : (4 * (a : ZMod p) ^ 3 + 27 * (b : ZMod p) ^ 2) ≠ 0 := by
    intro h
    apply hns
    have : ((4 * a ^ 3 + 27 * b ^ 2 : Nat) : ZMod p) = 0 := by push_cast; exact h
    exact Nat.mod_eq_zero_of_dvd ((ZMod.natCast_eq_zero_iff _ _).mp this)
  have hΔ : (curveOf a b p).Δ = -(2 ^ 4) * (4 * (a : ZMod p) ^ 3 + 27 * (b : ZMod p) ^ 2) := by
    simp [curveOf, WeierstrassCurve.Δ, WeierstrassCurve.b₂, WeierstrassCurve.b₄, WeierstrassCurve.b₆, WeierstrassCurve.b₈]
    ring
  rw [hΔ]
  exact mul_ne_zero (neg_ne_zero.mpr (pow_ne_zero _ (two_ne_zero_zmod h2))) h4

/-- The on-curve check is the curve's equation (42_on_curve_check.md rules R100, R101). -/
theorem isOnCurve_affine {x y : Nat} : isOnCurve a b p (.affine x y) = true ↔ (curveOf a b p).Equation x y := by
  rw [Affine.equation_iff]
  simp only [isOnCurve, beq_iff_eq, mod_eq_iff_cast, curveOf]
  push_cast
  constructor <;> intro h <;> linear_combination h

theorem nonsingular_iff_isOnCurve [Fact p.Prime] (h2 : p % 2 = 1) (hns : NonSingular a b p) {x y : Nat} :
    (curveOf a b p).Nonsingular x y ↔ isOnCurve a b p (.affine x y) = true := by
  rw [isOnCurve_affine, Affine.equation_iff_nonsingular_of_Δ_ne_zero (discriminant_ne_zero h2 hns)]

/-- Every point of a valid curve stands for an element of its group. -/
theorem exists_represents [Fact p.Prime] (h2 : p % 2 = 1) (hns : NonSingular a b p) {P : Point}
    (h : isOnCurve a b p P = true) : ∃ A : (curveOf a b p).Point, Represents P A := by
  cases P with
  | infinity => exact ⟨.zero, trivial⟩
  | affine x y => exact ⟨.some x y ((nonsingular_iff_isOnCurve h2 hns).mpr h), rfl, rfl⟩

theorem isOnCurve_of_represents {P : Point} {A : (curveOf a b p).Point} (h : Represents P A) : isOnCurve a b p P = true := by
  match P, A, h with
  | .infinity, .zero, _ => rfl
  | .affine x y, .some X Y hXY, ⟨hx, hy⟩ =>
    subst hx hy
    exact isOnCurve_affine.mpr hXY.1

/-- A reduced point is determined by the element it stands for. -/
theorem represents_inj {P Q : Point} {A : (curveOf a b p).Point} (hP : P.reduced p = true) (hQ : Q.reduced p = true)
    (h : Represents P A) (h' : Represents Q A) : P = Q := by
  match P, Q, A, h, h' with
  | .infinity, .infinity, .zero, _, _ => rfl
  | .affine x y, .affine x' y', .some X Y _, ⟨hx, hy⟩, ⟨hx', hy'⟩ =>
    obtain ⟨h1, h2⟩ := reduced_affine.mp hP
    obtain ⟨h3, h4⟩ := reduced_affine.mp hQ
    rw [(cast_inj_of_lt h1 h3).mp (hx.trans hx'.symm), (cast_inj_of_lt h2 h4).mp (hy.trans hy'.symm)]

/-- An element is determined by a point that stands for it. -/
theorem represents_unique {P : Point} {A B : (curveOf a b p).Point} (h : Represents P A) (h' : Represents P B) : A = B := by
  match P, A, B, h, h' with
  | .infinity, .zero, .zero, _, _ => rfl
  | .affine x y, .some X Y _, .some X' Y' _, ⟨hx, hy⟩, ⟨hx', hy'⟩ =>
    subst hx hy hx' hy'
    rfl

/-! ### The group law -/

theorem chordPoint_cast [hp : Fact p.Prime] (lam x1 y1 x2 : Nat) : ∃ xR yR : Nat,
    chordPoint p lam x1 y1 x2 = .affine xR yR ∧ xR < p ∧ yR < p ∧
    (xR : ZMod p) = (lam : ZMod p) * lam - x1 - x2 ∧ (yR : ZMod p) = lam * (x1 - xR) - y1 := by
  refine ⟨_, _, rfl, modp_lt hp.out.pos _, modp_lt hp.out.pos _, ?_, ?_⟩
  · rw [modp_zmod hp.out.pos]
    push_cast
    rfl
  · rw [modp_zmod hp.out.pos]
    push_cast
    rfl

/-- `add` on points with different abscissas: the chord (43_ecc_point_adder.md rule R111 case 5). -/
theorem add_of_x_ne [hp : Fact p.Prime] {xP yP xQ yQ : Nat} (hx : xP ≠ xQ) (hP : xP < p) (hQ : xQ < p) :
    ∃ lam, add p (.affine xP yP) (.affine xQ yQ) = .ok (chordPoint p lam xP yP xQ) ∧ lam < p ∧
      (lam : ZMod p) = ((yQ : ZMod p) - yP) / ((xQ : ZMod p) - xP) := by
  have hd : ((modp ((xQ : Int) - xP) p : Nat) : ZMod p) = (xQ : ZMod p) - xP := by
    rw [modp_zmod hp.out.pos]
    push_cast
    rfl
  have hne : (xQ : ZMod p) - xP ≠ 0 := sub_ne_zero.mpr fun h => hx ((cast_inj_of_lt hQ hP).mp h).symm
  have h0 : modp ((xQ : Int) - xP) p ≠ 0 := by
    intro h
    rw [h] at hd
    exact hne (by rw [← hd]; simp)
  obtain ⟨u, hu, -, hinv⟩ := invm_ok h0 (modp_lt hp.out.pos _)
  refine ⟨modp (((yQ : Int) - yP) * u) p, by simp [add, hx, hu], modp_lt hp.out.pos _, ?_⟩
  rw [modp_zmod hp.out.pos]
  push_cast
  rw [hinv, hd, div_eq_mul_inv]

/-- `double` on a point of the curve with y not 0: the tangent (44_ecc_point_doubler.md rule R121 step 3). -/
theorem double_of_y_ne [hp : Fact p.Prime] (h2 : p % 2 = 1) {x y : Nat} (hy0 : y ≠ 0) (hy : y < p)
    (hon : isOnCurve a b p (.affine x y) = true) :
    ∃ lam, double a b p (.affine x y) = .ok (chordPoint p lam x y x) ∧ lam < p ∧
      (lam : ZMod p) = (3 * x * x + a) / (2 * y) := by
  have hyz : (y : ZMod p) ≠ 0 := by
    have := (cast_inj_of_lt hy hp.out.pos).not.mpr hy0
    simpa using this
  have hne : (2 : ZMod p) * y ≠ 0 := mul_ne_zero (two_ne_zero_zmod h2) hyz
  have h0 : 2 * y % p ≠ 0 := by
    intro h
    apply hne
    have := (ZMod.natCast_eq_zero_iff (2 * y) p).mpr (Nat.dvd_of_mod_eq_zero h)
    exact_mod_cast this
  obtain ⟨u, hu, -, hinv⟩ := invm_ok h0 (Nat.mod_lt _ hp.out.pos)
  refine ⟨(3 * x * x + a) * u % p, by simp [double, hon, hu], Nat.mod_lt _ hp.out.pos, ?_⟩
  rw [cast_mod]
  push_cast
  rw [hinv, cast_mod, div_eq_mul_inv]
  push_cast
  rfl

/-- `double` raises only off the curve and for y = 0 (48_laws_and_properties.md rule R161). -/
theorem double_of_y_zero {x : Nat} (hon : isOnCurve a b p (.affine x 0) = true) :
    double a b p (.affine x 0) = .error .undefinedInverse := by simp [double, hon, invm]

/-- Two points of the curve with one abscissa have equal or opposite ordinates (93_implementation_defined.md G7). -/
theorem y_eq_or_opposite [Fact p.Prime] {x y y' : Nat} (h : isOnCurve a b p (.affine x y) = true)
    (h' : isOnCurve a b p (.affine x y') = true) : (y : ZMod p) = y' ∨ (y : ZMod p) + y' = 0 := by
  simp only [isOnCurve, beq_iff_eq, mod_eq_iff_cast] at h h'
  push_cast at h h'
  have : ((y : ZMod p) - y') * (y + y') = 0 := by linear_combination h - h'
  rcases mul_eq_zero.mp this with h | h
  · exact .inl (sub_eq_zero.mp h)
  · exact .inr h

/-- Where `add` answers on points of a valid curve, it answers with the sum in the group; it raises exactly for two operands
that are the same affine point, and then EqualPointsError (48_laws_and_properties.md rule R163). -/
theorem add_represents [hp : Fact p.Prime] {P Q : Point} {A B : (curveOf a b p).Point}
    (hP : P.reduced p = true) (hQ : Q.reduced p = true) (hA : Represents P A) (hB : Represents Q B) :
    (A = B ∧ A ≠ 0 ∧ add p P Q = .error .equalPoints) ∨
    (¬ (A = B ∧ A ≠ 0) ∧ ∃ R, add p P Q = .ok R ∧ R.reduced p = true ∧ Represents R (A + B)) := by
  match P, Q, A, B, hA, hB with
  | .infinity, Q, .zero, B, _, hB =>
    exact .inr ⟨fun h => h.2 rfl, Q, rfl, hQ, by rw [← Affine.Point.zero_def, zero_add]; exact hB⟩
  | .affine x y, .infinity, .some X Y hXY, .zero, hA, _ =>
    exact .inr ⟨fun h => (nomatch h.1), _, rfl, hP, by rw [← Affine.Point.zero_def, add_zero]; exact hA⟩
  | .affine xP yP, .affine xQ yQ, .some X Y h, .some X' Y' h', ⟨hx, hy⟩, ⟨hx', hy'⟩ =>
    subst hx hy hx' hy'
    obtain ⟨hxP, hyP⟩ := reduced_affine.mp hP
    obtain ⟨hxQ, hyQ⟩ := reduced_affine.mp hQ
    by_cases hxx : xP = xQ
    · subst hxx
      by_cases hyy : yP = yQ
      · subst hyy
        exact .inl ⟨rfl, Affine.Point.some_ne_zero _, by simp [add]⟩
      · have hsum : (yP : ZMod p) + yQ = 0 := by
          refine (y_eq_or_opposite (isOnCurve_affine.mpr h.1) (isOnCurve_affine.mpr h'.1)).resolve_left ?_
          exact fun e => hyy ((cast_inj_of_lt hyP hyQ).mp e)
        have hmod : (yP + yQ) % p = 0 :=
          Nat.mod_eq_zero_of_dvd ((ZMod.natCast_eq_zero_iff _ _).mp (by push_cast; exact hsum))
        refine .inr ⟨?_, .infinity, by simp [add, hyy, hmod], rfl, ?_⟩
        · rintro ⟨e, -⟩
          rw [Affine.Point.some.injEq] at e
          exact hyy ((cast_inj_of_lt hyP hyQ).mp e.2)
        · rw [Affine.Point.add_of_Y_eq rfl]
          · trivial
          · simp only [Affine.negY, curveOf]
            linear_combination hsum
    · have hxz : (xP : ZMod p) ≠ xQ := fun e => hxx ((cast_inj_of_lt hxP hxQ).mp e)
      obtain ⟨lam, hadd, -, hlam⟩ := add_of_x_ne (yP := yP) (yQ := yQ) hxx hxP hxQ
      obtain ⟨xR, yR, hR, hxR, hyR, hxc, hyc⟩ := chordPoint_cast (p := p) lam xP yP xQ
      refine .inr ⟨?_, .affine xR yR, by rw [hadd, hR], reduced_affine.mpr ⟨hxR, hyR⟩, ?_⟩
      · rintro ⟨e, -⟩
        rw [Affine.Point.some.injEq] at e
        exact hxz e.1
      · have hslope : (lam : ZMod p) = (curveOf a b p).slope xP xQ yP yQ := by
          rw [Affine.slope_of_X_ne hxz, hlam, ← neg_sub (yP : ZMod p), ← neg_sub (xP : ZMod p), neg_div_neg_eq]
        rw [Affine.Point.add_of_X_ne hxz]
        refine ⟨?_, ?_⟩
        · rw [← hslope, hxc]
          simp only [Affine.addX, curveOf]
          ring
        · rw [← hslope, hyc, hxc]
          simp only [Affine.addY, Affine.negAddY, Affine.negY, Affine.addX, curveOf]
          ring

/-- On points of a valid curve `double` answers with the double in the group; it raises exactly for the points of order 2, and
then UndefinedInverseError (48_laws_and_properties.md rule R161). -/
theorem double_represents [hp : Fact p.Prime] (h2 : p % 2 = 1) {P : Point} {A : (curveOf a b p).Point}
    (hP : P.reduced p = true) (hA : Represents P A) :
    (A + A = 0 ∧ A ≠ 0 ∧ double a b p P = .error .undefinedInverse) ∨
    (¬ (A + A = 0 ∧ A ≠ 0) ∧ ∃ R, double a b p P = .ok R ∧ R.reduced p = true ∧ Represents R (A + A)) := by
  match P, A, hA with
  | .infinity, .zero, _ =>
    exact .inr ⟨fun h => h.2 rfl, .infinity, rfl, rfl, by rw [← Affine.Point.zero_def, add_zero]; trivial⟩
  | .affine x y, .some X Y h, ⟨hx, hy⟩ =>
    subst hx hy
    obtain ⟨hxp, hyp⟩ := reduced_affine.mp hP
    have hon := isOnCurve_affine.mpr h.1
    by_cases hy0 : y = 0
    · subst hy0
      refine .inl ⟨Affine.Point.add_self_of_Y_eq ?_, Affine.Point.some_ne_zero _, double_of_y_zero hon⟩
      simp [Affine.negY, curveOf]
    · obtain ⟨lam, hdbl, -, hlam⟩ := double_of_y_ne h2 hy0 hyp hon
      obtain ⟨xR, yR, hR, hxR, hyR, hxc, hyc⟩ := chordPoint_cast (p := p) lam x y x
      have hyz : (y : ZMod p) ≠ 0 := by
        have := (cast_inj_of_lt hyp hp.out.pos).not.mpr hy0
        simpa using this
      have hneg : (y : ZMod p) ≠ (curveOf a b p).negY x y := by
        intro e
        simp only [Affine.negY, curveOf] at e
        refine mul_ne_zero (two_ne_zero_zmod h2) hyz ?_
        linear_combination e
      have hself := Affine.Point.add_self_of_Y_ne (W := curveOf a b p) (h₁ := h) hneg
      refine .inr ⟨?_, .affine xR yR, by rw [hdbl, hR], reduced_affine.mpr ⟨hxR, hyR⟩, ?_⟩
      · rintro ⟨e, -⟩
        rw [hself] at e
        exact Affine.Point.some_ne_zero _ e
      · have hslope : (lam : ZMod p) = (curveOf a b p).slope x x y y := by
          rw [Affine.slope_of_Y_ne rfl hneg, hlam]
          simp only [Affine.negY, curveOf]
          congr 1 <;> ring
        rw [hself]
        refine ⟨?_, ?_⟩
        · rw [← hslope, hxc]
          simp only [Affine.addX, curveOf]
          ring
        · rw [← hslope, hyc, hxc]
          simp only [Affine.addY, Affine.negAddY, Affine.negY, Affine.addX, curveOf]
          ring

end Sys2Proof.Machine
end

