-- ==== Sys2Proof/Laws/State.lean ====
section
/-! SUPPORT. One lemma per field and per update of the state: what the field holds afterwards. -/

namespace Sys2Proof.Machine

variable (s : State)

/-! ### setCa -/

@[simp] theorem setCa_geom (v : Nat) : (s.setCa v).geom = s.geom := rfl
@[simp] theorem setCa_ca (v : Nat) : (s.setCa v).ca = v := rfl
@[simp] theorem setCa_cb (v : Nat) : (s.setCa v).cb = s.cb := rfl
@[simp] theorem setCa_cp (v : Nat) : (s.setCa v).cp = s.cp := rfl
@[simp] theorem setCa_f (v : Nat) : (s.setCa v).f = s.f := rfl
@[simp] theorem setCa_pt (v : Nat) : (s.setCa v).pt = s.pt := rfl
@[simp] theorem setCa_k (v : Nat) : (s.setCa v).k = s.k := rfl
@[simp] theorem setCa_status (v : Nat) : (s.setCa v).status = s.status := rfl
@[simp] theorem setCa_pending (v : Nat) : (s.setCa v).pending = s.pending := rfl
@[simp] theorem setCa_pc (v : Nat) : (s.setCa v).pc = s.pc := rfl
@[simp] theorem setCa_responses (v : Nat) : (s.setCa v).responses = s.responses := rfl
@[simp] theorem setCa_fresh (v : Nat) : (s.setCa v).fresh = s.fresh := rfl

/-! ### setCb -/

@[simp] theorem setCb_geom (v : Nat) : (s.setCb v).geom = s.geom := rfl
@[simp] theorem setCb_ca (v : Nat) : (s.setCb v).ca = s.ca := rfl
@[simp] theorem setCb_cb (v : Nat) : (s.setCb v).cb = v := rfl
@[simp] theorem setCb_cp (v : Nat) : (s.setCb v).cp = s.cp := rfl
@[simp] theorem setCb_f (v : Nat) : (s.setCb v).f = s.f := rfl
@[simp] theorem setCb_pt (v : Nat) : (s.setCb v).pt = s.pt := rfl
@[simp] theorem setCb_k (v : Nat) : (s.setCb v).k = s.k := rfl
@[simp] theorem setCb_status (v : Nat) : (s.setCb v).status = s.status := rfl
@[simp] theorem setCb_pending (v : Nat) : (s.setCb v).pending = s.pending := rfl
@[simp] theorem setCb_pc (v : Nat) : (s.setCb v).pc = s.pc := rfl
@[simp] theorem setCb_responses (v : Nat) : (s.setCb v).responses = s.responses := rfl
@[simp] theorem setCb_fresh (v : Nat) : (s.setCb v).fresh = s.fresh := rfl

/-! ### setCp -/

@[simp] theorem setCp_geom (v : Nat) : (s.setCp v).geom = s.geom := rfl
@[simp] theorem setCp_ca (v : Nat) : (s.setCp v).ca = s.ca := rfl
@[simp] theorem setCp_cb (v : Nat) : (s.setCp v).cb = s.cb := rfl
@[simp] theorem setCp_cp (v : Nat) : (s.setCp v).cp = v := rfl
@[simp] theorem setCp_f (v : Nat) : (s.setCp v).f = s.f := rfl
@[simp] theorem setCp_pt (v : Nat) : (s.setCp v).pt = s.pt := rfl
@[simp] theorem setCp_k (v : Nat) : (s.setCp v).k = s.k := rfl
@[simp] theorem setCp_status (v : Nat) : (s.setCp v).status = s.status := rfl
@[simp] theorem setCp_pending (v : Nat) : (s.setCp v).pending = s.pending := rfl
@[simp] theorem setCp_pc (v : Nat) : (s.setCp v).pc = s.pc := rfl
@[simp] theorem setCp_responses (v : Nat) : (s.setCp v).responses = s.responses := rfl
@[simp] theorem setCp_fresh (v : Nat) : (s.setCp v).fresh = s.fresh := rfl

/-! ### setK -/

@[simp] theorem setK_geom (v : Nat) : (s.setK v).geom = s.geom := rfl
@[simp] theorem setK_ca (v : Nat) : (s.setK v).ca = s.ca := rfl
@[simp] theorem setK_cb (v : Nat) : (s.setK v).cb = s.cb := rfl
@[simp] theorem setK_cp (v : Nat) : (s.setK v).cp = s.cp := rfl
@[simp] theorem setK_f (v : Nat) : (s.setK v).f = s.f := rfl
@[simp] theorem setK_pt (v : Nat) : (s.setK v).pt = s.pt := rfl
@[simp] theorem setK_k (v : Nat) : (s.setK v).k = v := rfl
@[simp] theorem setK_status (v : Nat) : (s.setK v).status = s.status := rfl
@[simp] theorem setK_pending (v : Nat) : (s.setK v).pending = s.pending := rfl
@[simp] theorem setK_pc (v : Nat) : (s.setK v).pc = s.pc := rfl
@[simp] theorem setK_responses (v : Nat) : (s.setK v).responses = s.responses := rfl
@[simp] theorem setK_fresh (v : Nat) : (s.setK v).fresh = s.fresh := rfl

/-! ### setF -/

@[simp] theorem setF_geom (i : FIdx) (v : Nat) : (s.setF i v).geom = s.geom := rfl
@[simp] theorem setF_ca (i : FIdx) (v : Nat) : (s.setF i v).ca = s.ca := rfl
@[simp] theorem setF_cb (i : FIdx) (v : Nat) : (s.setF i v).cb = s.cb := rfl
@[simp] theorem setF_cp (i : FIdx) (v : Nat) : (s.setF i v).cp = s.cp := rfl
@[simp] theorem setF_f (i : FIdx) (v : Nat) : (s.setF i v).f = s.f.set i v := rfl
@[simp] theorem setF_pt (i : FIdx) (v : Nat) : (s.setF i v).pt = s.pt := rfl
@[simp] theorem setF_k (i : FIdx) (v : Nat) : (s.setF i v).k = s.k := rfl
@[simp] theorem setF_status (i : FIdx) (v : Nat) : (s.setF i v).status = s.status := rfl
@[simp] theorem setF_pending (i : FIdx) (v : Nat) : (s.setF i v).pending = s.pending := rfl
@[simp] theorem setF_pc (i : FIdx) (v : Nat) : (s.setF i v).pc = s.pc := rfl
@[simp] theorem setF_responses (i : FIdx) (v : Nat) : (s.setF i v).responses = s.responses := rfl
@[simp] theorem setF_fresh (i : FIdx) (v : Nat) : (s.setF i v).fresh = s.fresh := rfl

/-! ### setPt -/

@[simp] theorem setPt_geom (n : PIdx) (r : PointReg) : (s.setPt n r).geom = s.geom := rfl
@[simp] theorem setPt_ca (n : PIdx) (r : PointReg) : (s.setPt n r).ca = s.ca := rfl
@[simp] theorem setPt_cb (n : PIdx) (r : PointReg) : (s.setPt n r).cb = s.cb := rfl
@[simp] theorem setPt_cp (n : PIdx) (r : PointReg) : (s.setPt n r).cp = s.cp := rfl
@[simp] theorem setPt_f (n : PIdx) (r : PointReg) : (s.setPt n r).f = s.f := rfl
@[simp] theorem setPt_pt (n : PIdx) (r : PointReg) : (s.setPt n r).pt = s.pt.set n r := rfl
@[simp] theorem setPt_k (n : PIdx) (r : PointReg) : (s.setPt n r).k = s.k := rfl
@[simp] theorem setPt_status (n : PIdx) (r : PointReg) : (s.setPt n r).status = s.status := rfl
@[simp] theorem setPt_pending (n : PIdx) (r : PointReg) : (s.setPt n r).pending = s.pending := rfl
@[simp] theorem setPt_pc (n : PIdx) (r : PointReg) : (s.setPt n r).pc = s.pc := rfl
@[simp] theorem setPt_responses (n : PIdx) (r : PointReg) : (s.setPt n r).responses = s.responses := rfl
@[simp] theorem setPt_fresh (n : PIdx) (r : PointReg) : (s.setPt n r).fresh = s.fresh := rfl

/-! ### setStatus -/

@[simp] theorem setStatus_geom (st : StatusWord) : (s.setStatus st).geom = s.geom := rfl
@[simp] theorem setStatus_ca (st : StatusWord) : (s.setStatus st).ca = s.ca := rfl
@[simp] theorem setStatus_cb (st : StatusWord) : (s.setStatus st).cb = s.cb := rfl
@[simp] theorem setStatus_cp (st : StatusWord) : (s.setStatus st).cp = s.cp := rfl
@[simp] theorem setStatus_f (st : StatusWord) : (s.setStatus st).f = s.f := rfl
@[simp] theorem setStatus_pt (st : StatusWord) : (s.setStatus st).pt = s.pt := rfl
@[simp] theorem setStatus_k (st : StatusWord) : (s.setStatus st).k = s.k := rfl
@[simp] theorem setStatus_status (st : StatusWord) : (s.setStatus st).status = st := rfl
@[simp] theorem setStatus_pending (st : StatusWord) : (s.setStatus st).pending = s.pending := rfl
@[simp] theorem setStatus_pc (st : StatusWord) : (s.setStatus st).pc = s.pc := rfl
@[simp] theorem setStatus_responses (st : StatusWord) : (s.setStatus st).responses = s.responses := rfl
@[simp] theorem setStatus_fresh (st : StatusWord) : (s.setStatus st).fresh = s.fresh := rfl

/-! ### advance -/

@[simp] theorem advance_geom (rest : List HostEvent) : (s.advance rest).geom = s.geom := rfl
@[simp] theorem advance_ca (rest : List HostEvent) : (s.advance rest).ca = s.ca := rfl
@[simp] theorem advance_cb (rest : List HostEvent) : (s.advance rest).cb = s.cb := rfl
@[simp] theorem advance_cp (rest : List HostEvent) : (s.advance rest).cp = s.cp := rfl
@[simp] theorem advance_f (rest : List HostEvent) : (s.advance rest).f = s.f := rfl
@[simp] theorem advance_pt (rest : List HostEvent) : (s.advance rest).pt = s.pt := rfl
@[simp] theorem advance_k (rest : List HostEvent) : (s.advance rest).k = s.k := rfl
@[simp] theorem advance_status (rest : List HostEvent) : (s.advance rest).status = s.status := rfl
@[simp] theorem advance_pending (rest : List HostEvent) : (s.advance rest).pending = rest := rfl
@[simp] theorem advance_pc (rest : List HostEvent) : (s.advance rest).pc = s.pc + 1 := rfl
@[simp] theorem advance_responses (rest : List HostEvent) : (s.advance rest).responses = s.responses := rfl
@[simp] theorem advance_fresh (rest : List HostEvent) : (s.advance rest).fresh = s.fresh := rfl

/-! ### respond -/

@[simp] theorem respond_geom (v : Nat) : (s.respond v).geom = s.geom := rfl
@[simp] theorem respond_ca (v : Nat) : (s.respond v).ca = s.ca := rfl
@[simp] theorem respond_cb (v : Nat) : (s.respond v).cb = s.cb := rfl
@[simp] theorem respond_cp (v : Nat) : (s.respond v).cp = s.cp := rfl
@[simp] theorem respond_f (v : Nat) : (s.respond v).f = s.f := rfl
@[simp] theorem respond_pt (v : Nat) : (s.respond v).pt = s.pt := rfl
@[simp] theorem respond_k (v : Nat) : (s.respond v).k = s.k := rfl
@[simp] theorem respond_status (v : Nat) : (s.respond v).status = s.status := rfl
@[simp] theorem respond_pending (v : Nat) : (s.respond v).pending = s.pending := rfl
@[simp] theorem respond_pc (v : Nat) : (s.respond v).pc = s.pc := rfl
@[simp] theorem respond_responses (v : Nat) : (s.respond v).responses = v :: s.responses := rfl
@[simp] theorem respond_fresh (v : Nat) : (s.respond v).fresh = s.fresh := rfl

/-! ### useFresh -/

@[simp] theorem useFresh_geom (n : Nat) : (s.useFresh n).geom = s.geom := rfl
@[simp] theorem useFresh_ca (n : Nat) : (s.useFresh n).ca = s.ca := rfl
@[simp] theorem useFresh_cb (n : Nat) : (s.useFresh n).cb = s.cb := rfl
@[simp] theorem useFresh_cp (n : Nat) : (s.useFresh n).cp = s.cp := rfl
@[simp] theorem useFresh_f (n : Nat) : (s.useFresh n).f = s.f := rfl
@[simp] theorem useFresh_pt (n : Nat) : (s.useFresh n).pt = s.pt := rfl
@[simp] theorem useFresh_k (n : Nat) : (s.useFresh n).k = s.k := rfl
@[simp] theorem useFresh_status (n : Nat) : (s.useFresh n).status = s.status := rfl
@[simp] theorem useFresh_pending (n : Nat) : (s.useFresh n).pending = s.pending := rfl
@[simp] theorem useFresh_pc (n : Nat) : (s.useFresh n).pc = s.pc := rfl
@[simp] theorem useFresh_responses (n : Nat) : (s.useFresh n).responses = s.responses := rfl
@[simp] theorem useFresh_fresh (n : Nat) : (s.useFresh n).fresh = s.fresh + n := rfl

/-! ### completeOk -/

@[simp] theorem completeOk_geom : (s.completeOk).geom = s.geom := rfl
@[simp] theorem completeOk_ca : (s.completeOk).ca = s.ca := rfl
@[simp] theorem completeOk_cb : (s.completeOk).cb = s.cb := rfl
@[simp] theorem completeOk_cp : (s.completeOk).cp = s.cp := rfl
@[simp] theorem completeOk_f : (s.completeOk).f = s.f := rfl
@[simp] theorem completeOk_pt : (s.completeOk).pt = s.pt := rfl
@[simp] theorem completeOk_k : (s.completeOk).k = s.k := rfl
@[simp] theorem completeOk_status : (s.completeOk).status = statusAfterOk s.status := rfl
@[simp] theorem completeOk_pending : (s.completeOk).pending = s.pending := rfl
@[simp] theorem completeOk_pc : (s.completeOk).pc = s.pc := rfl
@[simp] theorem completeOk_responses : (s.completeOk).responses = s.responses := rfl
@[simp] theorem completeOk_fresh : (s.completeOk).fresh = s.fresh := rfl

/-! ### completeError -/

@[simp] theorem completeError_geom (e : ErrorKind) : (s.completeError e).geom = s.geom := rfl
@[simp] theorem completeError_ca (e : ErrorKind) : (s.completeError e).ca = s.ca := rfl
@[simp] theorem completeError_cb (e : ErrorKind) : (s.completeError e).cb = s.cb := rfl
@[simp] theorem completeError_cp (e : ErrorKind) : (s.completeError e).cp = s.cp := rfl
@[simp] theorem completeError_f (e : ErrorKind) : (s.completeError e).f = s.f := rfl
@[simp] theorem completeError_pt (e : ErrorKind) : (s.completeError e).pt = s.pt := rfl
@[simp] theorem completeError_k (e : ErrorKind) : (s.completeError e).k = s.k := rfl
@[simp] theorem completeError_status (e : ErrorKind) : (s.completeError e).status = statusAfterError s.status e := rfl
@[simp] theorem completeError_pending (e : ErrorKind) : (s.completeError e).pending = s.pending := rfl
@[simp] theorem completeError_pc (e : ErrorKind) : (s.completeError e).pc = s.pc := rfl
@[simp] theorem completeError_responses (e : ErrorKind) : (s.completeError e).responses = s.responses := rfl
@[simp] theorem completeError_fresh (e : ErrorKind) : (s.completeError e).fresh = s.fresh := rfl

/-! ### completeCheck -/

@[simp] theorem completeCheck_geom (r : Bool) : (s.completeCheck r).geom = s.geom := rfl
@[simp] theorem completeCheck_ca (r : Bool) : (s.completeCheck r).ca = s.ca := rfl
@[simp] theorem completeCheck_cb (r : Bool) : (s.completeCheck r).cb = s.cb := rfl
@[simp] theorem completeCheck_cp (r : Bool) : (s.completeCheck r).cp = s.cp := rfl
@[simp] theorem completeCheck_f (r : Bool) : (s.completeCheck r).f = s.f := rfl
@[simp] theorem completeCheck_pt (r : Bool) : (s.completeCheck r).pt = s.pt := rfl
@[simp] theorem completeCheck_k (r : Bool) : (s.completeCheck r).k = s.k := rfl
@[simp] theorem completeCheck_status (r : Bool) : (s.completeCheck r).status = statusAfterOk (statusWithOnc s.status r) := rfl
@[simp] theorem completeCheck_pending (r : Bool) : (s.completeCheck r).pending = s.pending := rfl
@[simp] theorem completeCheck_pc (r : Bool) : (s.completeCheck r).pc = s.pc := rfl
@[simp] theorem completeCheck_responses (r : Bool) : (s.completeCheck r).responses = s.responses := rfl
@[simp] theorem completeCheck_fresh (r : Bool) : (s.completeCheck r).fresh = s.fresh := rfl

/-! ### Registers by index -/

@[simp] theorem readF_setF (i j : FIdx) (v : Nat) : (s.setF i v).readF j = if j = i then v else s.readF j := by
  by_cases h : j = i
  · subst h
    simp [State.readF]
  · have h' : (i : Nat) ≠ j := fun e => h (Fin.ext e.symm)
    simp [State.readF, h, h']

theorem getPt_setPt (n m : PIdx) (r : PointReg) : (s.setPt n r).pt[m] = if m = n then r else s.pt[m] := by
  by_cases h : m = n
  · subst h
    simp
  · have h' : (n : Nat) ≠ m := fun e => h (Fin.ext e.symm)
    simp [h, h']

/-- The same in simp's own spelling of the index. -/
@[simp] theorem pt_set_get (n m : PIdx) (r : PointReg) :
    (s.pt.set n r)[(m : Nat)] = if m = n then r else s.pt[(m : Nat)] :=
  getPt_setPt s n m r

@[simp] theorem readPt_setPt (n m : PIdx) (r : PointReg) :
    (s.setPt n r).readPt m = if m = n then r.value else s.readPt m := by
  unfold State.readPt
  rw [getPt_setPt]
  split <;> rfl

theorem readF_eq {s t : State} (h : t.f = s.f) (i : FIdx) : t.readF i = s.readF i := by simp [State.readF, h]

theorem readPt_eq {s t : State} (h : t.pt = s.pt) (n : PIdx) : t.readPt n = s.readPt n := by simp [State.readPt, h]

@[simp] theorem value_inf (x y : Nat) : (PointReg.mk true x y).value = .infinity := rfl

@[simp] theorem value_affine (x y : Nat) : (PointReg.mk false x y).value = .affine x y := rfl

/-! ### Free values are of the register's width -/

theorem freeField_lt (j : Nat) : s.freeField j < 2 ^ s.geom.W := Nat.mod_lt _ (by positivity)

theorem freeScalar_lt (j : Nat) : s.freeScalar j < 2 ^ s.geom.KW := Nat.mod_lt _ (by positivity)

/-! ### Reset -/

section Reset
variable (g : Config.Geometry)

@[simp] theorem resetOf_geom : (State.resetOf g).geom = g := rfl
@[simp] theorem resetOf_ca : (State.resetOf g).ca = 0 := rfl
@[simp] theorem resetOf_cb : (State.resetOf g).cb = 0 := rfl
@[simp] theorem resetOf_cp : (State.resetOf g).cp = 0 := rfl
@[simp] theorem resetOf_k : (State.resetOf g).k = 0 := rfl
@[simp] theorem resetOf_status : (State.resetOf g).status = 0 := rfl
@[simp] theorem resetOf_readF (i : FIdx) : (State.resetOf g).readF i = 0 := by simp [State.resetOf, State.readF]
@[simp] theorem resetOf_pt (n : PIdx) : (State.resetOf g).pt[n] = ⟨false, 0, 0⟩ := by simp [State.resetOf]

end Reset

end Sys2Proof.Machine
end

