-- ==== Sys2Proof/Laws/Ops.lean ====
section
/-! SUPPORT. What each shared operation can do, said once: what it leaves unchanged, how it leaves STATUS, and that it keeps
the invariant `State.Wf`. -/

namespace Sys2Proof.Machine

variable {s : State}

/-! ### Frames -/

theorem Frame.refl (fd : Option FIdx) (pd : Option PIdx) (s : State) : Frame fd pd s s :=
  ⟨⟨rfl, rfl, rfl, rfl, rfl, fun _ _ => rfl, fun _ _ => rfl⟩, ⟨rfl, rfl, rfl⟩⟩

/-- An update of STATUS and of the free-value counter changes no register. -/
theorem frame_of_status {t : State} (fd : Option FIdx) (pd : Option PIdx) (st : StatusWord) (n : Nat)
    (h : t = { s with status := st, fresh := n }) : Frame fd pd s t := by
  subst h
  exact ⟨⟨rfl, rfl, rfl, rfl, rfl, fun _ _ => rfl, fun _ _ => rfl⟩, ⟨rfl, rfl, rfl⟩⟩

/-- An update of one field register, STATUS and the free-value counter. -/
theorem frame_of_field {t : State} (pd : Option PIdx) (i : FIdx) (v : Nat) (st : StatusWord) (n : Nat)
    (h : t = { s.setF i v with status := st, fresh := n }) : Frame (some i) pd s t := by
  subst h
  refine ⟨⟨rfl, rfl, rfl, rfl, rfl, fun j hj => ?_, fun _ _ => rfl⟩, ⟨rfl, rfl, rfl⟩⟩
  have : j ≠ i := fun e => hj (e ▸ rfl)
  exact (readF_setF s i j v).trans (by simp [this])

/-- An update of one point register, STATUS and the free-value counter. -/
theorem frame_of_point {t : State} (fd : Option FIdx) (m : PIdx) (r : PointReg) (st : StatusWord) (n : Nat)
    (h : t = { s.setPt m r with status := st, fresh := n }) : Frame fd (some m) s t := by
  subst h
  refine ⟨⟨rfl, rfl, rfl, rfl, rfl, fun _ _ => rfl, fun j hj => ?_⟩, ⟨rfl, rfl, rfl⟩⟩
  have : j ≠ m := fun e => hj (e ▸ rfl)
  exact (getPt_setPt s m j r).trans (by simp [this])

theorem completeOk_frame (fd : Option FIdx) (pd : Option PIdx) : Frame fd pd s s.completeOk :=
  frame_of_status fd pd _ s.fresh rfl

theorem completeError_frame (fd : Option FIdx) (pd : Option PIdx) (e : ErrorKind) : Frame fd pd s (s.completeError e) :=
  frame_of_status fd pd _ s.fresh rfl

theorem completeField_frame (fd : FIdx) (v : Nat) : Frame (some fd) none s (s.completeField fd v) :=
  frame_of_field none fd v _ s.fresh rfl

theorem completeFieldUnspecified_frame (fd : FIdx) : Frame (some fd) none s (s.completeFieldUnspecified fd) :=
  frame_of_field none fd _ _ _ rfl

theorem completePoint_frame (pd : PIdx) (r : Except ErrorKind Point) : Frame none (some pd) s (s.completePoint pd r) := by
  match r with
  | .error e => exact completeError_frame none (some pd) e
  | .ok .infinity => exact frame_of_point none pd _ _ _ rfl
  | .ok (.affine x y) => exact frame_of_point none pd _ _ s.fresh rfl

theorem completePointUnspecified_frame (pd : PIdx) : Frame none (some pd) s (s.completePointUnspecified pd) := by
  unfold State.completePointUnspecified
  split
  · exact frame_of_point none pd _ _ _ rfl
  · exact frame_of_status none (some pd) _ _ rfl

theorem completeCheck_frame (r : Bool) : Frame none none s (s.completeCheck r) := frame_of_status none none _ s.fresh rfl

/-! ### STATUS -/

/-- How any completion may leave STATUS: code 0 with STICKY kept, or an error code with STICKY set; ONC and the reserved bits
kept. -/
def Completes (s t : State) : Prop := StatusOk s t ∨ ∃ e : ErrorKind, StatusError e.code s t

theorem completeOk_statusOk : StatusOk s s.completeOk := ⟨by simp, by simp, by simp, by simp⟩

theorem completeError_statusError (e : ErrorKind) : StatusError e.code s (s.completeError e) := ⟨by simp, by simp, by simp, by simp⟩

theorem completeField_status (fd : FIdx) (v : Nat) : StatusOk s (s.completeField fd v) :=
  ⟨by simp [State.completeField], by simp [State.completeField], by simp [State.completeField],
    by simp [State.completeField]⟩

theorem completeFieldUnspecified_status (fd : FIdx) : StatusOk s (s.completeFieldUnspecified fd) :=
  ⟨by simp [State.completeFieldUnspecified], by simp [State.completeFieldUnspecified],
    by simp [State.completeFieldUnspecified], by simp [State.completeFieldUnspecified]⟩

@[simp] theorem writePoint_status (pd : PIdx) (R : Point) : (s.writePoint pd R).status = s.status := by cases R <;> rfl

theorem completePoint_ok_status (pd : PIdx) (R : Point) : StatusOk s (s.completePoint pd (.ok R)) :=
  ⟨by simp [State.completePoint], by simp [State.completePoint], by simp [State.completePoint],
    by simp [State.completePoint]⟩

theorem completePoint_error (pd : PIdx) (e : ErrorKind) : s.completePoint pd (.error e) = s.completeError e := rfl

theorem completePoint_completes (pd : PIdx) (r : Except ErrorKind Point) : Completes s (s.completePoint pd r) := by
  match r with
  | .ok R => exact .inl (completePoint_ok_status pd R)
  | .error e => exact .inr ⟨e, completeError_statusError e⟩

/-- The completion of a point command outside its precondition: code 0, or one of the codes 1 to 3 and no register written. -/
theorem completePointUnspecified_cases (pd : PIdx) :
    StatusOk s (s.completePointUnspecified pd) ∨
    ∃ e : ErrorKind, e ≠ .illegalCommand ∧ StatusError e.code s (s.completePointUnspecified pd) ∧
      Frame none none s (s.completePointUnspecified pd) := by
  unfold State.completePointUnspecified
  split
  · exact .inl ⟨by simp, by simp, by simp, by simp⟩
  · next e h =>
    exact .inr ⟨e, (errorOfCode_some h).1, ⟨by simp, by simp, by simp, by simp⟩, frame_of_status none none _ _ rfl⟩

/-! ### What a point register holds after a write -/

theorem writePoint_readPt (pd n : PIdx) (R : Point) :
    (s.writePoint pd R).readPt n = if n = pd then R else s.readPt n := by
  cases R with
  | infinity =>
    have h : (s.writePoint pd .infinity).readPt n = (s.setPt pd ⟨true, s.freeField 0, s.freeField 1⟩).readPt n :=
      readPt_eq rfl n
    rw [h, readPt_setPt]
    rfl
  | affine x y => exact readPt_setPt s pd n ⟨false, x, y⟩

theorem completePoint_ok_readPt (pd n : PIdx) (R : Point) :
    (s.completePoint pd (.ok R)).readPt n = if n = pd then R else s.readPt n := by
  have h : (s.completePoint pd (.ok R)).readPt n = (s.writePoint pd R).readPt n := readPt_eq rfl n
  rw [h, writePoint_readPt]

theorem completeField_readF (fd i : FIdx) (v : Nat) :
    (s.completeField fd v).readF i = if i = fd then v else s.readF i := readF_setF s fd i v

/-! ### The invariant is kept -/

/-- STATUS values the block produces: the part of `State.Wf` about STATUS. -/
structure StatusWf (st : StatusWord) : Prop where
  err_le : (statusErr st).toNat ≤ 4
  reserved_zero : statusReserved st = 0
  sticky_of_err : statusErr st ≠ 0 → statusSticky st = true

theorem State.Wf.statusWf (h : s.Wf) : StatusWf s.status := ⟨h.err_le, h.reserved_zero, h.sticky_of_err⟩

theorem statusWf_zero : StatusWf 0 := ⟨by decide, by decide, by decide⟩

theorem statusWf_afterOk {st : StatusWord} (h : StatusWf st) : StatusWf (statusAfterOk st) :=
  ⟨by simp, by simpa using h.reserved_zero, by simp⟩

theorem statusWf_afterError {st : StatusWord} (h : StatusWf st) (e : ErrorKind) : StatusWf (statusAfterError st e) :=
  ⟨by simpa using code_le_four e, by simpa using h.reserved_zero, by simp⟩

/-- Clearing STICKY is well formed only together with ERR <- 0, as CLRERR does it. -/
theorem statusWf_clear {st : StatusWord} (h : StatusWf st) : StatusWf (statusAfterOk (statusWithSticky st false)) :=
  ⟨by simp, by simpa using h.reserved_zero, by simp⟩

theorem statusWf_withOnc {st : StatusWord} (h : StatusWf st) (b : Bool) : StatusWf (statusWithOnc st b) :=
  ⟨by simpa using h.err_le, by simpa using h.reserved_zero, by simpa using h.sticky_of_err⟩

theorem setStatus_wf (h : s.Wf) {st : StatusWord} (hst : StatusWf st) : (s.setStatus st).Wf :=
  { h with err_le := hst.err_le, reserved_zero := hst.reserved_zero, sticky_of_err := hst.sticky_of_err }

theorem useFresh_wf (h : s.Wf) (n : Nat) : (s.useFresh n).Wf := { h with }

theorem advance_wf (h : s.Wf) (rest : List HostEvent) : (s.advance rest).Wf := { h with }

theorem respond_wf (h : s.Wf) (v : Nat) : (s.respond v).Wf := { h with }

theorem setCa_wf (h : s.Wf) {v : Nat} (hv : v < 2 ^ s.geom.W) : (s.setCa v).Wf := { h with ca_lt := hv }

theorem setCb_wf (h : s.Wf) {v : Nat} (hv : v < 2 ^ s.geom.W) : (s.setCb v).Wf := { h with cb_lt := hv }

theorem setCp_wf (h : s.Wf) {v : Nat} (hv : v < 2 ^ s.geom.W) : (s.setCp v).Wf := { h with cp_lt := hv }

theorem setK_wf (h : s.Wf) {v : Nat} (hv : v < 2 ^ s.geom.KW) : (s.setK v).Wf := { h with k_lt := hv }

theorem setF_wf (h : s.Wf) (i : FIdx) {v : Nat} (hv : v < 2 ^ s.geom.W) : (s.setF i v).Wf :=
  { h with
    f_lt := fun j => by
      rw [readF_setF]
      split
      · exact hv
      · exact h.f_lt j }

theorem setPt_wf (h : s.Wf) (n : PIdx) {r : PointReg} (hx : r.x < 2 ^ s.geom.W) (hy : r.y < 2 ^ s.geom.W) :
    (s.setPt n r).Wf :=
  { h with
    x_lt := fun m => by
      rw [getPt_setPt]
      split
      · exact hx
      · exact h.x_lt m
    y_lt := fun m => by
      rw [getPt_setPt]
      split
      · exact hy
      · exact h.y_lt m }

theorem completeOk_wf (h : s.Wf) : s.completeOk.Wf := setStatus_wf h (statusWf_afterOk h.statusWf)

theorem completeError_wf (h : s.Wf) (e : ErrorKind) : (s.completeError e).Wf :=
  setStatus_wf h (statusWf_afterError h.statusWf e)

theorem completeCheck_wf (h : s.Wf) (r : Bool) : (s.completeCheck r).Wf :=
  completeOk_wf (setStatus_wf h (statusWf_withOnc h.statusWf r))

theorem completeField_wf (h : s.Wf) (fd : FIdx) {v : Nat} (hv : v < 2 ^ s.geom.W) : (s.completeField fd v).Wf :=
  completeOk_wf (setF_wf h fd hv)

theorem completeFieldUnspecified_wf (h : s.Wf) (fd : FIdx) : (s.completeFieldUnspecified fd).Wf :=
  completeOk_wf (useFresh_wf (setF_wf h fd (freeField_lt s 0)) 1)

/-- The coordinates of a point, if it has any, fit W bits. -/
def Point.Fits (W : Nat) : Point → Prop
  | .infinity => True
  | .affine x y => x < 2 ^ W ∧ y < 2 ^ W

theorem writePoint_wf (h : s.Wf) (pd : PIdx) {R : Point} (hR : R.Fits s.geom.W) : (s.writePoint pd R).Wf := by
  cases R with
  | infinity => exact useFresh_wf (setPt_wf h pd (freeField_lt s 0) (freeField_lt s 1)) 2
  | affine x y => exact setPt_wf h pd hR.1 hR.2

theorem completePoint_wf (h : s.Wf) (pd : PIdx) {r : Except ErrorKind Point}
    (hr : ∀ R, r = .ok R → R.Fits s.geom.W) : (s.completePoint pd r).Wf := by
  match r with
  | .ok R => exact completeOk_wf (writePoint_wf h pd (hr R rfl))
  | .error e => exact completeError_wf h e

theorem completePointUnspecified_wf (h : s.Wf) (pd : PIdx) : (s.completePointUnspecified pd).Wf := by
  unfold State.completePointUnspecified
  split
  · exact completeOk_wf (useFresh_wf (setPt_wf h pd (freeField_lt s 2) (freeField_lt s 3)) 4)
  · exact completeError_wf (useFresh_wf h 4) _

theorem writeSel_wf (h : s.Wf) (sel : Option Sel) (v : Nat) : (s.writeSel sel v).Wf := by
  have cut (n : Nat) : v % 2 ^ n < 2 ^ n := Nat.mod_lt _ (by positivity)
  match sel with
  | none | some .cmd | some .status => exact h
  | some .ca => exact setCa_wf h (cut _)
  | some .cb => exact setCb_wf h (cut _)
  | some .cp => exact setCp_wf h (cut _)
  | some .k => exact setK_wf h (cut _)
  | some (.f i) => exact setF_wf h i (cut _)
  | some (.ptX n) => exact setPt_wf h n (cut _) (h.y_lt n)
  | some (.ptY n) => exact setPt_wf h n (h.x_lt n) (cut _)
  | some (.ptInf n) => exact setPt_wf h n (h.x_lt n) (h.y_lt n)

theorem resetEvent_wf (h : s.geom.Valid) : s.resetEvent.Wf where
  geom_valid := h
  ca_lt := freeField_lt s 0
  cb_lt := freeField_lt s 1
  cp_lt := freeField_lt s 2
  k_lt := freeScalar_lt s 3
  f_lt i := by
    have e : s.resetEvent.readF i = s.freeField (4 + i) := by simp [State.resetEvent, State.readF]
    rw [e]
    exact freeField_lt s _
  x_lt n := by
    have e : s.resetEvent.pt[n] = s.freePointReg (12 + 3 * n) := by simp [State.resetEvent]
    rw [e]
    exact freeField_lt s _
  y_lt n := by
    have e : s.resetEvent.pt[n] = s.freePointReg (12 + 3 * n) := by simp [State.resetEvent]
    rw [e]
    exact freeField_lt s _
  err_le := statusWf_zero.err_le
  reserved_zero := statusWf_zero.reserved_zero
  sticky_of_err := statusWf_zero.sticky_of_err

end Sys2Proof.Machine
end

