-- ==== Sys2Proof/Laws/PerInstr.lean ====
section
/-! SUPPORT. The family SelectsRow: a command's word selects its own row of the opcode table and no other
(30_encoding.md rule R63), and its fields are well formed (rule R62). -/

namespace Sys2Proof.Laws.SelectsRow

/-- The rows the word of the command selects are its own row alone, and the command is well formed. -/
def Statement (i : Instr) : Prop :=
  (∀ r : Fin 9, (opcodeTable[r]).selects (encode i) = decide (r = i.row)) ∧ i.wellFormed = true

theorem montmul (fd fs1 fs2 : FIdx) : Statement (.montmul fd fs1 fs2) := by
  revert fd fs1 fs2; unfold Statement; decide +kernel

theorem modadd (fd fs1 fs2 : FIdx) : Statement (.modadd fd fs1 fs2) := by
  revert fd fs1 fs2; unfold Statement; decide +kernel

theorem modsub (fd fs1 fs2 : FIdx) : Statement (.modsub fd fs1 fs2) := by
  revert fd fs1 fs2; unfold Statement; decide +kernel

theorem padd (pd ps1 ps2 : PIdx) : Statement (.padd pd ps1 ps2) := by
  revert pd ps1 ps2; unfold Statement; decide +kernel

theorem pdbl (pd ps1 : PIdx) : Statement (.pdbl pd ps1) := by
  revert pd ps1; unfold Statement; decide +kernel

theorem smulda (pd ps1 : PIdx) : Statement (.smulda pd ps1) := by
  revert pd ps1; unfold Statement; decide +kernel

theorem smulml (pd ps1 : PIdx) : Statement (.smulml pd ps1) := by
  revert pd ps1; unfold Statement; decide +kernel

theorem pchk (ps1 : PIdx) : Statement (.pchk ps1) := by
  revert ps1; unfold Statement; decide +kernel

theorem clrerr : Statement .clrerr := by
  unfold Statement; decide +kernel

end Sys2Proof.Laws.SelectsRow
end

