-- ==== Sys2Proof/Tests/Slice0.lean ====
section
/-! SUPPORT. Tests of the model on the spec's own vectors (95_test_vectors.md; the id of the row stands beside each), and, for
every obligation with hypotheses, a witness: concrete operands and states that meet them together. -/

namespace Sys2Proof.Tests

open Sys2Proof.Machine

/-! ### Well-formedness: one ill-formed field quadruple for each check (30_encoding.md rules R62 to R64) -/

theorem test_wf_op_zero : (Fields.mk 0x0 0 0 0).wellFormed = false := by decide
theorem test_wf_op_ten : (Fields.mk 0xA 0 0 0).wellFormed = false := by decide
theorem test_wf_field_rd : (Fields.mk 0x1 8 0 0).wellFormed = false := by decide
theorem test_wf_field_rs1 : (Fields.mk 0x2 0 8 0).wellFormed = false := by decide
theorem test_wf_field_rs2 : (Fields.mk 0x3 0 0 8).wellFormed = false := by decide
theorem test_wf_point_rd : (Fields.mk 0x4 4 0 0).wellFormed = false := by decide
theorem test_wf_point_rs1 : (Fields.mk 0x6 0 4 0).wellFormed = false := by decide
theorem test_wf_point_rs2 : (Fields.mk 0x4 0 0 4).wellFormed = false := by decide
theorem test_wf_unused_rd : (Fields.mk 0x8 1 2 0).wellFormed = false := by decide
theorem test_wf_unused_rs1 : (Fields.mk 0x9 0 1 0).wellFormed = false := by decide
theorem test_wf_unused_rs2 : (Fields.mk 0x7 3 0 1).wellFormed = false := by decide
theorem test_wf_accepts : (Fields.mk 0x1 7 7 7).wellFormed = true ∧ (Fields.mk 0x4 3 3 3).wellFormed = true ∧
    (Fields.mk 0x9 0 0 0).wellFormed = true := by decide

/-! ### Decoding: words written out from 30_encoding.md rules R61, R63 (95 section 2.7) -/

theorem test_decode_montmul : decode 0b0001_0111_0111_0111 = .ok (.montmul 7 7 7) := by decide
theorem test_decode_modadd : decode 0b0010_0010_0000_0001 = .ok (.modadd 2 0 1) := by decide
theorem test_decode_modsub : decode 0b0011_0111_0111_0000 = .ok (.modsub 7 7 0) := by decide
theorem test_decode_padd : decode 0b0100_0001_0010_0011 = .ok (.padd 1 2 3) := by decide
theorem test_decode_pdbl : decode 0b0101_0011_0010_0000 = .ok (.pdbl 3 2) := by decide
theorem test_decode_smulda : decode 0b0110_0011_0000_0000 = .ok (.smulda 3 0) := by decide
theorem test_decode_smulml : decode 0b0111_0001_0010_0000 = .ok (.smulml 1 2) := by decide
theorem test_decode_pchk : decode 0b1000_0000_0010_0000 = .ok (.pchk 2) := by decide
theorem test_decode_clrerr : decode 0b1001_0000_0000_0000 = .ok .clrerr := by decide
theorem test_decode_illegal : decode 0x0000 = .error .illegalOp ∧ decode 0xF000 = .error .illegalOp ∧
    decode 0x1080 = .error .indexOutOfRange ∧ decode 0x4004 = .error .indexOutOfRange ∧
    decode 0x6040 = .error .indexOutOfRange ∧ decode 0x7033 = .error .unusedFieldNotZero ∧
    decode 0x8021 = .error .unusedFieldNotZero ∧ decode 0x9100 = .error .unusedFieldNotZero := by decide
theorem test_decode_table_word : decodeTableWord 16 0x4201 = some (.padd 2 0 1) ∧ decodeTableWord 16 0x5104 = none := by decide

/-! ### Small states -/

/-- The affine point (x, y) in a point register. -/
def aff (x y : Nat) : PointReg := ⟨false, x, y⟩

/-- Infinity in a point register, over coordinates that must not matter. -/
def inf : PointReg := ⟨true, 77, 88⟩

/-- A point state: widths W = KW = w, a curve, PT0 and PT1 with (9, 9) in PT2 and PT3, and the scalar. -/
def pst (w a b p : Nat) (P0 P1 : PointReg) (k : Nat := 0) : State :=
  { State.resetOf ⟨w, w⟩ with ca := a, cb := b, cp := p, pt := #v[P0, P1, aff 9 9, aff 9 9], k := k }

/-- The curve E1: y² = x³ + 7 over 17, W = 8 (95 section 0). -/
def e1 (P0 P1 : PointReg) (k : Nat := 0) : State := pst 8 0 7 17 P0 P1 k

/-- The curve E2: y² = x³ + 2x + 2 over 17, W = 8 (95 section 0). -/
def e2 (P0 P1 : PointReg) (k : Nat := 0) : State := pst 8 2 2 17 P0 P1 k

/-- A field state: width w, prime p, F0 and F1, and marker values above. -/
def fst (w p u v : Nat) : State :=
  { State.resetOf ⟨w, w⟩ with cp := p, f := #v[u, v, 99, 99, 99, 99, 99, 99] }

/-- The state with this STATUS. -/
def withSt (st : StatusWord) (s : State) : State := { s with status := st }

/-- The state with these host events. -/
def withEv (l : List HostEvent) (s : State) : State := { s with pending := l }

/-- The state a step answered; an impossible state of no width where it refused. -/
def nextOf (o : Host.Outcome State Fault Refusal) : State :=
  match o with
  | .next t => t
  | .fault f => nomatch f
  | .refused _ => State.resetOf ⟨0, 0⟩

/-- The state after the step that runs this command word. -/
def run (w : Nat) (s : State) : State := nextOf (step (s.withFetchWord 16 w))

/-! ### One step, at most two vectors for each command -/

/-- MM-9. -/
theorem test_montmul : (run 0x1201 (fst 8 251 100 200)).readF 2 = 235 ∧ (run 0x1201 (fst 8 251 100 200)).readF 0 = 100 := by
  decide +kernel
/-- MM-10: p above 2^(W-1); the same word. -/
theorem test_montmul_narrow : (run 0x1201 (fst 5 17 16 16)).readF 2 = 8 := by decide +kernel
/-- MA-7: a wrap at 256 would give 44. -/
theorem test_modadd : (run 0x2201 (fst 8 251 200 100)).readF 2 = 49 := by decide +kernel
/-- MA-9: doubling in place. -/
theorem test_modadd_in_place : (run 0x2000 (fst 8 17 1 5)).readF 0 = 2 := by decide +kernel
/-- MS-1. -/
theorem test_modsub : (run 0x3201 (withSt 0x0C (fst 8 23 5 9))).readF 2 = 19 ∧
    (run 0x3201 (withSt 0x0C (fst 8 23 5 9))).status = 0x08 := by decide +kernel
/-- MS-5: the negative of 0 is 0, not p. -/
theorem test_modsub_zero : (run 0x3201 (fst 8 23 0 0)).readF 2 = 0 := by decide +kernel
/-- PADD-19. -/
theorem test_padd : (run 0x4201 (withSt 0x1A (e1 (aff 15 13) (aff 2 10)))).readPt 2 = .affine 8 3 ∧
    (run 0x4201 (withSt 0x1A (e1 (aff 15 13) (aff 2 10)))).status = 0x18 := by decide +kernel
/-- PADD-7: the equal test comes before the vertical-inverse test. -/
theorem test_padd_equal : (run 0x4201 (e1 (aff 3 0) (aff 3 0))).readPt 2 = .affine 9 9 ∧
    (run 0x4201 (e1 (aff 3 0) (aff 3 0))).status = 0x0A := by decide +kernel
/-- PDBL-9. -/
theorem test_pdbl : (run 0x5100 (e2 (aff 5 1) (aff 9 9))).readPt 1 = .affine 6 3 := by decide +kernel
/-- PDBL-5: the on-curve check comes before the inverse. -/
theorem test_pdbl_off_curve : (run 0x5100 (e1 (aff 1 0) (aff 9 9))).readPt 1 = .affine 9 9 ∧
    (run 0x5100 (e1 (aff 1 0) (aff 9 9))).status = 0x09 := by decide +kernel
/-- SM-6: double-and-add completes where the ladder raises. -/
theorem test_smulda : (run 0x6100 (e1 (aff 15 13) (aff 9 9) 17)).readPt 1 = .affine 15 4 := by decide +kernel
/-- SM-11: double-and-add raises where the ladder completes. -/
theorem test_smulda_equal : (run 0x6100 (e1 (aff 5 8) (aff 9 9) 5)).readPt 1 = .affine 9 9 ∧
    (run 0x6100 (e1 (aff 5 8) (aff 9 9) 5)).status = 0x0A := by decide +kernel
/-- SM-25: a full-width scalar on E3, W = 32. -/
theorem test_smulml : (run 0x7100 (pst 32 0 7 0xFFFFFFFB (aff 2 0x3BF04CA9) inf 0xDEADBEEF)).readPt 1 =
    .affine 0x749FA1EA 0x99C15A36 := by decide +kernel
/-- SM-6: the doubling whose result would be thrown away raises. -/
theorem test_smulml_order_two : (run 0x7100 (e1 (aff 15 13) (aff 9 9) 17)).readPt 1 = .affine 9 9 ∧
    (run 0x7100 (e1 (aff 15 13) (aff 9 9) 17)).status = 0x0B := by decide +kernel
/-- PC-7. -/
theorem test_pchk : (run 0x8000 (withSt 0x0A (e1 (aff 15 13) inf))).status = 0x18 := by decide +kernel
/-- PC-5, PC-6: (0, 0) is an affine point, Infinity is on the curve whatever its coordinates. -/
theorem test_pchk_infinity : (run 0x8000 (withSt 0x10 (e1 (aff 0 0) inf))).status = 0x00 ∧
    (run 0x8010 (e1 (aff 0 0) inf)).status = 0x10 := by decide +kernel
/-- ST-5. -/
theorem test_clrerr : (run 0x9000 (withSt 0x1A State.reset)).status = 0x10 := by decide +kernel
/-- ST-9: an illegal word near CLRERR clears nothing. -/
theorem test_clrerr_illegal : (run 0x9001 (withSt 0x0C State.reset)).status = 0x0C := by decide +kernel

/-! ### The port (95 section 2.8) -/

/-- The value a RD of this selector returns after the first event. -/
def readAfter (e : HostEvent) (sel : Selector) (s : State) : List Nat :=
  (nextOf (step (nextOf (step (withEv [e, .rd sel] s))))).responses

/-- IO-1, IO-12: the value is cut to the register's width; IO-3, IO-4: of INF, to one bit. -/
theorem test_port_cut : readAfter (.wr 0x10 0x105) 0x10 State.reset = [5] ∧
    readAfter (.wr 0x05 0x12345678) 0x05 (State.resetOf ⟨32, 8⟩) = [0x78] ∧
    readAfter (.wr 0x22 3) 0x22 State.reset = [1] ∧ readAfter (.wr 0x22 2) 0x22 State.reset = [0] := by decide +kernel
/-- IO-6, IO-8: WR to STATUS and to a reserved selector are ignored. -/
theorem test_port_inert : readAfter (.wr 0x01 0) 0x01 (withSt 0x1A State.reset) = [0x1A] ∧
    readAfter (.wr 0x23 7) 0x23 State.reset = [0] ∧ readAfter (.rd 0x00) 0x01 (withSt 0x1A State.reset) = [0x1A, 0] := by
  decide +kernel
/-- With PW = 32 the upper bits of a value written to CMD are ignored (95 section 2.7). -/
theorem test_port_cmd : (nextOf (step (withEv [.wr 0x00 0xABCD1201] (fst 32 23 5 7)))).readF 2 =
    (run 0x1201 (fst 32 23 5 7)).readF 2 := by decide +kernel

/-! ### The assembler (30_encoding.md rules R67, R68; 95 section 3) -/

theorem test_asm_wr : assembleLine "WR PT3.INF, 0x1F ; comment".toList = some [.wr 0x2E 31] := by decide
theorem test_asm_command : assembleLine "MODSUB F7, F7, F0".toList = some [.wr 0x00 0x3770] := by decide
theorem test_asm_pseudo : assembleLine "LDPT PT1, 15, 4".toList = some [.wr 0x24 15, .wr 0x25 4, .wr 0x26 0] := by decide
theorem test_asm_rejects : assembleLine "MODSUB F8, F7, F0".toList = none ∧ assembleLine "  ; nothing".toList = some [] := by
  decide

/-! ### Witnesses: the hypotheses of each obligation are met together

One theorem for each obligation that has hypotheses, in the obligations' order. -/

/-- The parameters of E1 meet `ParamCurve`. -/
theorem e1_params : CurveParams 0 7 17 := ⟨by norm_num, by decide, by decide, by decide⟩
/-- E1 is not singular. -/
theorem e1_nonsingular : NonSingular 0 7 17 := by unfold NonSingular; decide
/-- The parameters of E2 meet `ParamCurve`. -/
theorem e2_params : CurveParams 2 2 17 := ⟨by norm_num, by decide, by decide, by decide⟩

theorem witness_DecodeThenEncodeIsIdentity : decode 0x4123 = .ok (.padd 1 2 3) := by decide
theorem witness_LegalWordsSelectTheirRowAlone : decode 0x1777 = .ok (.montmul 7 7 7) ∧ decode 0x9000 = .ok .clrerr ∧
    (opcodeTable[(8 : Fin 9)]).selects 0x9000 = true ∧ (opcodeTable[(3 : Fin 9)]).selects 0x4400 = false := by decide
theorem witness_IllegalWordsAreThoseOfTheRule : IllegalWord 0x0FFF ∧ IllegalWord 0xA000 ∧ IllegalWord 0x1800 ∧
    IllegalWord 0x4004 ∧ IllegalWord 0x5001 ∧ IllegalWord 0x8100 ∧ IllegalWord 0x9001 ∧ ¬ IllegalWord 0x9000 := by
  refine ⟨?_, ?_, ?_, ?_, ?_, ?_, ?_, ?_⟩ <;> decide
theorem witness_StepRunsTheDecodedCommand : (withEv [.wr 0x00 0x14201, .rd 0x01] State.reset).pending =
    .wr 0x00 0x14201 :: [.rd 0x01] ∧ decode (BitVec.ofNat 16 0x14201) = .ok (.padd 2 0 1) := by decide
theorem witness_IllegalWordCompletesWithCode4 : (withEv [.wr 0x00 0x5104] State.reset).pending = .wr 0x00 0x5104 :: [] ∧
    IllegalWord (BitVec.ofNat 16 0x5104) := by decide
theorem witness_IdleStepKeepsTheState : State.reset.pending = [] := rfl
/-- All three kinds of event. -/
theorem witness_StepTakesOneHostEvent :
    (∃ t, step (withEv [.wr 0x00 0x9000] State.reset) = .next t) ∧ (∃ t, step (withEv [.wr 0x2E 1] State.reset) = .next t) ∧
    (∃ t, step (withEv [.rd 0xFF] State.reset) = .next t) ∧ (∃ t, step (withEv [.reset] State.reset) = .next t) :=
  ⟨⟨_, rfl⟩, ⟨_, rfl⟩, ⟨_, rfl⟩, ⟨_, rfl⟩⟩
theorem witness_ReadAfterWriteReturnsTheValueCut : (Sel.ptInf 3).isReadWrite = true ∧
    (withEv [.wr 0x2E 3, .rd 0x2E] State.reset).pending = .wr (encodeSel (.ptInf 3)) 3 :: .rd (encodeSel (.ptInf 3)) :: [] := by
  decide
theorem witness_WriteChangesOneRegister : (Sel.f 7).isReadWrite = true ∧
    (withEv [.wr 0x17 0x105] State.reset).pending = .wr (encodeSel (.f 7)) 0x105 :: [] := by decide
/-- The ends of every reserved range, STATUS and CMD. -/
theorem witness_ReservedSelectorsAreInert :
    ReservedSelector 0x06 ∧ ReservedSelector 0x0F ∧ ReservedSelector 0x18 ∧ ReservedSelector 0x1F ∧ ReservedSelector 0x23 ∧
    ReservedSelector 0x2F ∧ ReservedSelector 0x30 ∧ ReservedSelector 0xFF ∧ ¬ ReservedSelector 0x05 ∧ ¬ ReservedSelector 0x10 ∧
    ¬ ReservedSelector 0x22 ∧ ¬ ReservedSelector 0x24 ∧
    (withEv [.wr 0x01 5] State.reset).pending = .wr 0x01 5 :: [] ∧ (withEv [.rd 0x00] State.reset).pending = .rd 0x00 :: [] := by
  refine ⟨?_, ?_, ?_, ?_, ?_, ?_, ?_, ?_, ?_, ?_, ?_, ?_, ?_⟩ <;> decide
/-- Each clause, at the ends of its range; no selector falls under two. -/
theorem witness_ReadReturnsTheNamedRegister : (0x10 : Selector).toNat = 0x10 + (0 : FIdx) ∧
    (0x17 : Selector).toNat = 0x10 + (7 : FIdx) ∧ (0x20 : Selector).toNat = 0x20 + 4 * (0 : PIdx) ∧
    (0x2C : Selector).toNat = 0x20 + 4 * (3 : PIdx) ∧ (0x2D : Selector).toNat = 0x21 + 4 * (3 : PIdx) ∧
    (0x2E : Selector).toNat = 0x22 + 4 * (3 : PIdx) ∧ State.reset.status.toNat = 0 ∧
    (withEv [.rd 0x2E] State.reset).pending = .rd 0x2E :: [] ∧ (withEv [.rd 0x05] State.reset).pending = .rd 0x05 :: [] := by
  decide
theorem witness_PseudoInstructionsDoTheirPurpose :
    (withEv [.wr 0x24 15, .wr 0x25 4, .wr 0x26 0] State.reset).pending = (AsmLine.ldpt 1 15 4).expand ++ [] ∧
    (withEv [.wr 0x2E 1] State.reset).pending = (AsmLine.ldinf 3).expand ++ [] ∧
    (withEv [.wr 0x02 2, .wr 0x03 2, .wr 0x04 17] State.reset).pending = (AsmLine.ldcurve 2 2 17).expand ++ [] ∧
    (withEv [.rd 0x22, .rd 0x20, .rd 0x21] State.reset).pending = (AsmLine.rdpt 0).expand ++ [] := by decide
theorem witness_CommandsWriteTheFlagsOfRuleR18 : (∃ t, exec (.padd 2 0 0) (e1 (aff 3 0) inf) = .next t) ∧
    (∃ t, exec .clrerr (e1 (aff 3 0) inf) = .next t) ∧ (∃ t, exec (.pchk 0) (e1 (aff 3 0) inf) = .next t) ∧
    Instr.padd 2 0 0 ≠ .clrerr ∧ ∀ ps1, Instr.padd 2 0 0 ≠ .pchk ps1 :=
  ⟨⟨_, rfl⟩, ⟨_, rfl⟩, ⟨_, rfl⟩, by decide, by decide⟩
theorem witness_ErrorsArePrecise : (∃ t, exec (.pdbl 1 0) (e1 (aff 1 0) inf) = .next t) ∧
    statusErr (nextOf (exec (.pdbl 1 0) (e1 (aff 1 0) inf))).status ≠ 0 := ⟨⟨_, rfl⟩, by decide +kernel⟩
theorem witness_CommandsWriteOnlyTheirDestination : ∃ t, exec (.smulml 3 0) (e1 (aff 15 13) inf 5) = .next t := ⟨_, rfl⟩
theorem witness_PaddAndPdblRaiseOnlyTheirErrors : Precondition (.padd 2 0 1) (e1 (aff 3 0) inf) ∧
    Precondition (.pdbl 1 0) (e1 (aff 3 0) inf) ∧ (∃ t, exec (.padd 2 0 1) (e1 (aff 3 0) inf) = .next t) ∧
    ∃ t, exec (.pdbl 1 0) (e1 (aff 3 0) inf) = .next t :=
  ⟨⟨e1_params.prime, by decide, by decide, by decide⟩, ⟨e1_params, by decide⟩, ⟨_, rfl⟩, ⟨_, rfl⟩⟩
/-- Two different states with the same operands. -/
theorem witness_ResultsDependOnOperandsAlone :
    let s := e1 (aff 15 13) inf 5
    let t := withSt 0x1B { e1 (aff 15 13) (aff 1 1) 5 with fresh := 4, f := Vector.replicate 8 3 }
    SameOperands (.smulda 2 0) s t ∧ Precondition (.smulda 2 0) s ∧ s ≠ t ∧
      (∃ u, exec (.smulda 2 0) s = .next u) ∧ ∃ u, exec (.smulda 2 0) t = .next u :=
  ⟨⟨rfl, rfl, rfl, rfl, rfl, rfl⟩, ⟨e1_params, .inl (by decide)⟩, by decide, ⟨_, rfl⟩, ⟨_, rfl⟩⟩
/-- Also at p = 1, the least modulus. -/
theorem witness_FieldPrimitivesAreModular : ((22 : Nat) < 23 ∧ (22 : Nat) < 23 ∧ (1 : Nat) ≤ 23) ∧ ((0 : Nat) < 1 ∧ (1 : Nat) ≤ 1) := by
  decide
theorem witness_InverseIsUniqueOrRaises : Nat.Prime 3 ∧ 3 % 2 = 1 ∧ (0 : Nat) < 3 ∧ ((2 : Nat) < 3 ∧ (2 : Nat) ≠ 0) ∧
    (1 : Nat) ≤ 2 ∧ 2 * 2 % 3 = 1 := by refine ⟨by norm_num, ?_⟩; decide
theorem witness_BitLengthAndBitTest : (1 : Nat) ≠ 0 ∧ (1 : Nat) ≤ 1 ∧ 2 ^ (1 - 1) ≤ 1 ∧ 1 < 2 ^ 1 := by decide
theorem witness_MontmulWritesTheMontgomeryProduct : let s := fst 8 23 22 22
    1 ≤ s.cp ∧ s.cp % 2 = 1 ∧ s.readF 0 < s.cp ∧ s.readF 1 < s.cp ∧
    ∃ r, r < s.cp ∧ r * 2 ^ s.geom.W % s.cp = s.readF 0 * s.readF 1 % s.cp :=
  ⟨by decide, by decide, by decide, by decide, 8, by decide, by decide⟩
theorem witness_ModaddWritesTheSum : let s := fst 8 251 250 250
    1 ≤ s.cp ∧ s.readF 0 < s.cp ∧ s.readF 1 < s.cp := by decide
theorem witness_ModsubWritesTheDifference : let s := fst 8 1 0 0
    1 ≤ s.cp ∧ s.readF 0 < s.cp ∧ s.readF 1 < s.cp := by decide
/-- An even modulus for MONTMUL, an operand not reduced, and CP = 0. -/
theorem witness_FieldCommandsOutsideTheirPrecondition : ¬ Precondition (.montmul 2 0 1) (fst 8 22 1 1) ∧
    ¬ Precondition (.modadd 2 0 1) (fst 8 23 23 1) ∧ ¬ Precondition (.modsub 2 0 1) (fst 8 0 0 0) :=
  ⟨fun h => absurd h.2.1 (by decide), fun h => absurd h.2.1 (by decide), fun h => absurd h.1 (by decide)⟩
theorem witness_BitSerialAlgorithmIsMontmul : 3 % 2 = 1 ∧ (2 : Nat) < 3 ∧ (3 : Nat) < 2 ^ 2 ∧ (2 : Nat) ≤ 2 := by decide
theorem witness_MontgomeryFormIdentities : 23 % 2 = 1 ∧ (5 : Nat) < 23 ∧ (7 : Nat) < 23 ∧ (22 : Nat) < 23 := by decide
theorem witness_OneCorrectionSuffices : (0 : Nat) < 23 ∧ (22 : Nat) < 23 := by decide
theorem witness_PchkReportsTheCurveEquation : let s := e1 (aff 16 16) inf
    CurveParams s.ca s.cb s.cp ∧ (s.readPt 0).reduced s.cp = true ∧ (s.readPt 1).reduced s.cp = true :=
  ⟨e1_params, by decide, by decide⟩
/-- Infinity on either side, vertical inverses, different abscissas. -/
theorem witness_PaddWritesTheSum : Nat.Prime (e1 inf inf).cp ∧ (e1 inf inf).cp % 2 = 1 ∧
    (e1 inf (aff 15 13)).readPt 0 = .infinity ∧ (e1 (aff 15 13) inf).readPt 1 = .infinity ∧
    ((e1 (aff 15 13) (aff 15 4)).readPt 0 = .affine 15 13 ∧ (e1 (aff 15 13) (aff 15 4)).readPt 1 = .affine 15 4 ∧
      (13 : Nat) ≠ 4 ∧ (13 + 4) % (e1 inf inf).cp = 0) ∧
    ((e1 (aff 1 1) (aff 2 3)).readPt 0 = .affine 1 1 ∧ (e1 (aff 1 1) (aff 2 3)).readPt 1 = .affine 2 3 ∧ (1 : Nat) ≠ 2) ∧
    ((e1 (aff 15 13) (aff 15 4)).readPt 0).reduced 17 = true ∧ ((e1 (aff 15 13) (aff 15 4)).readPt 1).reduced 17 = true :=
  ⟨e1_params.prime, by decide⟩
/-- The same point, with y = 0 and as one register; one abscissa with ordinates neither equal nor opposite. -/
theorem witness_PaddRaises : Nat.Prime (e1 inf inf).cp ∧ (e1 inf inf).cp % 2 = 1 ∧
    ((e1 (aff 3 0) inf).readPt 0 = .affine 3 0 ∧ ((e1 (aff 3 0) inf).readPt 0).reduced 17 = true) ∧
    ((e1 (aff 1 1) (aff 1 2)).readPt 0 = .affine 1 1 ∧ (e1 (aff 1 1) (aff 1 2)).readPt 1 = .affine 1 2 ∧
      ((e1 (aff 1 1) (aff 1 2)).readPt 0).reduced 17 = true ∧ ((e1 (aff 1 1) (aff 1 2)).readPt 1).reduced 17 = true ∧
      (1 : Nat) ≠ 2 ∧ (1 + 2) % (e1 inf inf).cp ≠ 0) := ⟨e1_params.prime, by decide⟩
theorem witness_PdblWritesTheDouble : CurveParams (e1 inf inf).ca (e1 inf inf).cb (e1 inf inf).cp ∧
    (e1 inf inf).readPt 0 = .infinity ∧ (e1 (aff 15 13) inf).readPt 0 = .affine 15 13 ∧ (13 : Nat) ≠ 0 ∧
    13 * 13 % 17 = (15 * 15 * 15 + 0 * 15 + 7) % 17 ∧ ((e1 (aff 15 13) inf).readPt 0).reduced 17 = true :=
  ⟨e1_params, by decide⟩
/-- Off the curve with y = 0; on the curve with y = 0. -/
theorem witness_PdblRaises : CurveParams (e1 inf inf).ca (e1 inf inf).cb (e1 inf inf).cp ∧
    ((e1 (aff 1 0) inf).readPt 0 = .affine 1 0 ∧ 0 * 0 % 17 ≠ (1 * 1 * 1 + 0 * 1 + 7) % 17) ∧
    ((e1 (aff 3 0) inf).readPt 0 = .affine 3 0 ∧ 0 * 0 % 17 = (3 * 3 * 3 + 0 * 3 + 7) % 17) ∧
    ((e1 (aff 1 0) inf).readPt 0).reduced 17 = true ∧ ((e1 (aff 3 0) inf).readPt 0).reduced 17 = true :=
  ⟨e1_params, by decide⟩
/-- An even CP, a coordinate not reduced, a coefficient not reduced; and with K not 0. -/
theorem witness_PointCommandsOutsideTheirPrecondition : ¬ Precondition (.padd 2 0 1) (pst 8 0 7 16 inf inf) ∧
    ¬ Precondition (.pdbl 2 0) (e1 (aff 17 0) inf) ∧ ¬ Precondition (.smulda 2 0) (pst 8 17 7 17 inf inf) ∧
    ¬ Precondition (.smulml 2 0) (e1 (aff 17 0) inf 1) ∧ ¬ Precondition (.pchk 0) (e1 (aff 0 17) inf) :=
  ⟨fun h => absurd h.2.1 (by decide), fun h => absurd h.2 (by decide), fun h => absurd h.1.a_lt (by decide),
    fun h => h.2.elim (fun h => absurd h (by decide)) (fun h => absurd h (by decide)), fun h => absurd h.2 (by decide)⟩
theorem witness_AdditionCommutes : Nat.Prime 17 ∧ 17 % 2 = 1 ∧ (Point.affine 15 13).reduced 17 = true ∧
    (Point.affine 2 10).reduced 17 = true := ⟨e1_params.prime, by decide⟩
/-- PDBL-2, PDBL-3, PADD-8. -/
theorem witness_AddAndDoubleStayOnTheCurve : CurveParams 0 7 17 ∧ (Point.affine 15 13).reduced 17 = true ∧
    (Point.affine 2 10).reduced 17 = true ∧ isOnCurve 0 7 17 (.affine 15 13) = true ∧ isOnCurve 0 7 17 (.affine 2 10) = true ∧
    double 0 7 17 (.affine 15 13) = .ok (.affine 2 10) ∧ double 0 7 17 (.affine 3 0) = .error .undefinedInverse ∧
    add 17 (.affine 15 13) (.affine 2 10) = .ok (.affine 8 3) := ⟨e1_params, by decide +kernel⟩
/-- PADD-14. -/
theorem witness_AdditionAssociates : CurveParams 0 7 17 ∧ NonSingular 0 7 17 ∧ isOnCurve 0 7 17 (.affine 15 13) = true ∧
    isOnCurve 0 7 17 (.affine 2 10) = true ∧ isOnCurve 0 7 17 (.affine 12 1) = true ∧
    (Point.affine 15 13).reduced 17 = true ∧ (Point.affine 2 10).reduced 17 = true ∧ (Point.affine 12 1).reduced 17 = true ∧
    add 17 (.affine 15 13) (.affine 2 10) = .ok (.affine 8 3) ∧ add 17 (.affine 8 3) (.affine 12 1) = .ok (.affine 10 15) ∧
    add 17 (.affine 2 10) (.affine 12 1) = .ok (.affine 5 8) ∧ add 17 (.affine 15 13) (.affine 5 8) = .ok (.affine 10 15) :=
  ⟨e1_params, e1_nonsingular, by decide +kernel⟩
/-- SM-7 and SM-11, and K = 0 with a point that is not reduced. -/
theorem witness_SmuldaCompletesAsDoubleAndAdd : CurveParams 0 7 17 ∧ (Point.affine 15 13).reduced 17 = true ∧
    (e1 (aff 15 13) inf 18).readPt 0 = .affine 15 13 ∧
    scalarMulDoubleAndAdd 0 7 17 (.affine 15 13) 18 = .ok .infinity ∧
    scalarMulDoubleAndAdd 0 7 17 (.affine 5 8) 5 = .error .equalPoints ∧ (e1 (aff 99 99) inf 0).k = 0 :=
  ⟨e1_params, by decide +kernel⟩
/-- SM-11 and SM-6. -/
theorem witness_SmulmlCompletesAsLadder : CurveParams 0 7 17 ∧ (Point.affine 5 8).reduced 17 = true ∧
    (e1 (aff 5 8) inf 5).readPt 0 = .affine 5 8 ∧ scalarMulLadder 0 7 17 (.affine 5 8) 5 = .ok (.affine 5 9) ∧
    scalarMulLadder 0 7 17 (.affine 15 13) 17 = .error .undefinedInverse := ⟨e1_params, by decide +kernel⟩
theorem witness_ScalarZeroGivesInfinity : let s := e1 (aff 99 99) inf 0
    CurveParams s.ca s.cb s.cp ∧ s.k = 0 := ⟨e1_params, rfl⟩
/-- A point, a point of order 2, a point off the curve. -/
theorem witness_ScalarOneGivesThePointOrRaises : CurveParams 0 7 17 ∧
    (isOnCurve 0 7 17 (.affine 15 13) = true ∧ (Point.affine 15 13).reduced 17 = true ∧ ∀ x, Point.affine 15 13 ≠ .affine x 0) ∧
    (isOnCurve 0 7 17 (.affine 3 0) = true ∧ (Point.affine 3 0).reduced 17 = true ∧ ∃ x, Point.affine 3 0 = .affine x 0) ∧
    (isOnCurve 0 7 17 (.affine 1 1) = false ∧ (Point.affine 1 1).reduced 17 = true) :=
  ⟨e1_params, ⟨by decide, by decide, by simp⟩, ⟨by decide, by decide, 3, rfl⟩, by decide⟩
theorem witness_ScalarMultiplicationIsTheGroupMultiple : Fact (Nat.Prime 17) ∧ CurveParams 0 7 17 ∧ NonSingular 0 7 17 ∧
    (Point.affine 15 13).reduced 17 = true ∧ isOnCurve 0 7 17 (.affine 15 13) = true ∧
    scalarMulDoubleAndAdd 0 7 17 (.affine 15 13) 5 = .ok (.affine 6 6) ∧
    scalarMulLadder 0 7 17 (.affine 15 13) 5 = .ok (.affine 6 6) :=
  ⟨⟨e1_params.prime⟩, e1_params, e1_nonsingular, by decide +kernel⟩
/-- SM-4. -/
theorem witness_TheTwoMultipliersAgree : CurveParams 0 7 17 ∧ NonSingular 0 7 17 ∧ (Point.affine 15 13).reduced 17 = true ∧
    isOnCurve 0 7 17 (.affine 15 13) = true ∧ scalarMulDoubleAndAdd 0 7 17 (.affine 15 13) 5 = .ok (.affine 6 6) ∧
    scalarMulLadder 0 7 17 (.affine 15 13) 5 = .ok (.affine 6 6) := ⟨e1_params, e1_nonsingular, by decide +kernel⟩
/-- The point (5, 8) of E1, of order 3: 2·P = (5, 9) (PDBL-6) and (5, 8) + (5, 9) is Infinity. -/
theorem witness_LadderIsTotalOnOddOrder : ∃ (_ : Fact (Nat.Prime 17)) (A : (curveOf 0 7 17).Point),
    CurveParams 0 7 17 ∧ NonSingular 0 7 17 ∧ (Point.affine 5 8).reduced 17 = true ∧ Represents (.affine 5 8) A ∧
    addOrderOf A % 2 = 1 ∧ 0 < addOrderOf A := by
  have : Fact (Nat.Prime 17) := ⟨e1_params.prime⟩
  obtain ⟨A, hA⟩ := exists_represents e1_params.odd e1_nonsingular (P := .affine 5 8) (by decide)
  have hdbl : double 0 7 17 (.affine 5 8) = .ok (.affine 5 9) := by decide +kernel
  have hadd : add 17 (.affine 5 9) (.affine 5 8) = .ok .infinity := by decide +kernel
  obtain ⟨-, -, h⟩ | ⟨-, D, hD, hDred, hDA⟩ := double_represents e1_params.odd (by decide) hA
  · rw [hdbl] at h; cases h
  rw [hdbl] at hD
  cases hD
  obtain ⟨-, -, h⟩ | ⟨-, S, hS, -, hSA⟩ := add_represents hDred (by decide) hDA hA
  · rw [hadd] at h; cases h
  rw [hadd] at hS
  cases hS
  have h3 : 3 • A = 0 := by
    have : A + A + A = 0 := represents_unique hSA (B := .zero) trivial
    rw [← this]
    abel
  have hdvd := (Nat.dvd_prime Nat.prime_three).mp (addOrderOf_dvd_of_nsmul_eq_zero h3)
  refine ⟨this, A, e1_params, e1_nonsingular, by decide, hA, ?_, ?_⟩ <;> rcases hdvd with h | h <;> omega
theorem witness_LadderNeverRaisesEqualPoints : CurveParams 0 7 17 ∧ NonSingular 0 7 17 ∧
    (Point.affine 8 3).reduced 17 = true ∧ (Point.affine 1 1).reduced 17 = true := ⟨e1_params, e1_nonsingular, by decide⟩
/-- 95 section 1.1. -/
theorem witness_LadderOfFiveIsTheScenario : CurveParams 0 7 17 ∧ NonSingular 0 7 17 ∧
    (Point.affine 15 13).reduced 17 = true ∧ isOnCurve 0 7 17 (.affine 15 13) = true ∧
    scalarMulLadder 0 7 17 (.affine 15 13) 5 = .ok (.affine 6 6) ∧ double 0 7 17 (.affine 15 13) = .ok (.affine 2 10) ∧
    double 0 7 17 (.affine 2 10) = .ok (.affine 12 1) ∧ add 17 (.affine 12 1) (.affine 15 13) = .ok (.affine 6 6) :=
  ⟨e1_params, e1_nonsingular, by decide +kernel⟩
theorem witness_ResetEventClearsStatus : let s := withEv [.reset, .rd 0x01] (withSt 0x1F (e1 (aff 1 1) inf))
    s.pending = .reset :: [.rd 0x01] ∧ s.geom.Valid := by decide
/-- The least legal widths. -/
theorem witness_ResetStateIsWellFormed : (Config.Geometry.mk 2 1).Valid := by decide
theorem witness_EveryStepKeepsTheInvariant : let s := withEv [.wr 0x00 0x4201] (withSt 0x1A (e1 (aff 15 13) inf 5))
    s.Wf ∧ ∃ t, step s = .next t :=
  ⟨⟨by decide, by decide, by decide, by decide, by decide, by decide, by decide, by decide, by decide, by decide, by decide⟩,
    ⟨_, rfl⟩⟩

end Sys2Proof.Tests
end

section
/-! PROOFS. The statements of 00_scope.md: the field primitives (rules R6 to R8), and that a command's result depends on its
operands alone (rule R2). -/

namespace Sys2Proof.Machine

/-! ### The field primitives -/

theorem mulm_lt {p : Nat} (hp : 0 < p) (u v : Nat) : mulm u v p < p := Nat.mod_lt _ hp

/-- Settles O24: addition and multiplication are reduced by definition, and `modp` is the integers' own remainder. -/
theorem fieldPrimitivesAreModular : Obligations.FieldPrimitivesAreModular := by
  intro u v p _ _ hp
  exact ⟨rfl, modp_cast hp _, rfl, addm_lt hp u v, subm_lt hp u v, mulm_lt hp u v⟩

@[simp] theorem invm_zero (p : Nat) : invm 0 p = .error .undefinedInverse := rfl

theorem invm_of_ne_zero {v : Nat} (h0 : v ≠ 0) (p : Nat) : invm v p = .ok (v ^ (p - 2) % p) := by
  simp [invm, h0, powm_eq]

/-- The inverse of a non-zero residue, in the integers and in the field of p elements. -/
theorem mul_mod_eq_one_iff {p : Nat} [hp : Fact p.Prime] {v : Nat} (h0 : v ≠ 0) (hv : v < p) (w : Nat) :
    w * v % p = 1 ↔ (w : ZMod p) = (v : ZMod p)⁻¹ := by
  have hne : (v : ZMod p) ≠ 0 := by simpa using (cast_inj_of_lt hv hp.out.pos).not.mpr h0
  calc w * v % p = 1
    _ ↔ w * v % p = 1 % p := by rw [Nat.mod_eq_of_lt hp.out.one_lt]
    _ ↔ (w : ZMod p) * v = 1 := by rw [mod_eq_iff_cast, Nat.cast_mul, Nat.cast_one]
    _ ↔ (w : ZMod p) = (v : ZMod p)⁻¹ := mul_eq_one_iff_eq_inv₀ hne

/-- Settles O25: `invm` is the inverse in the field of p elements, and reduced numbers are determined by their residues. -/
theorem inverseIsUniqueOrRaises : Obligations.InverseIsUniqueOrRaises := by
  intro v p hp _ hv
  have : Fact p.Prime := ⟨hp⟩
  refine ⟨fun h => h ▸ invm_zero p, fun h0 => ?_⟩
  obtain ⟨u, hu, hlt, hinv⟩ := invm_ok h0 hv
  have hmul : u * v % p = 1 := (mul_mod_eq_one_iff h0 hv u).mpr hinv
  have hpos : u ≠ 0 := by
    rintro rfl
    simp at hmul
  have hpow : u = v ^ (p - 2) % p := by simpa [invm_of_ne_zero h0] using hu.symm
  refine ⟨u, hu, Nat.one_le_iff_ne_zero.mpr hpos, hlt, hmul, hpow, fun w _ hw hwv => ?_⟩
  exact (cast_inj_of_lt hw hlt).mp (((mul_mod_eq_one_iff h0 hv w).mp hwv).trans hinv.symm)

theorem numBits_of_ne_zero {k : Nat} (hk : k ≠ 0) : numBits k = k.log2 + 1 := if_neg hk

/-- The bit length of a positive number is the one position that its two bounds fix. -/
theorem numBits_eq_iff {k n : Nat} (hk : k ≠ 0) (hn : 1 ≤ n) : numBits k = n ↔ 2 ^ (n - 1) ≤ k ∧ k < 2 ^ n := by
  obtain ⟨m, rfl⟩ := Nat.exists_eq_add_of_le' hn
  rw [numBits_of_ne_zero hk, Nat.add_right_cancel_iff, Nat.log2_eq_iff hk, Nat.add_sub_cancel]

theorem bit_eq_true_iff (k i : Nat) : bit k i = true ↔ k / 2 ^ i % 2 = 1 := beq_iff_eq

/-- Settles O26: both bounds on the bit length, and its uniqueness, are `numBits_eq_iff`. -/
theorem bitLengthAndBitTest : Obligations.BitLengthAndBitTest := by
  refine fun k i => ⟨fun h => if_pos h, fun hk => ?_, bit_eq_true_iff k i⟩
  have hpos : 1 ≤ numBits k := numBits_of_ne_zero hk ▸ Nat.succ_pos _
  obtain ⟨hlow, hhigh⟩ := (numBits_eq_iff hk hpos).mp rfl
  exact ⟨hpos, hlow, hhigh, fun n hn hle hlt => ((numBits_eq_iff hk hn).mpr ⟨hle, hlt⟩).symm⟩

/-! ### Every command under its precondition

The completion with which it ends, as a function of its operands. -/

section UnderPrecondition
variable {s : State} {fd fs1 fs2 : FIdx} {pd ps1 ps2 : PIdx}

theorem CurveParams.oddPrime {a b p : Nat} (h : CurveParams a b p) : oddPrime p = true :=
  (oddPrime_iff p).mpr ⟨h.prime, h.odd⟩

theorem exec_montmul_of_precondition (h : Precondition (.montmul fd fs1 fs2) s) :
    exec (.montmul fd fs1 fs2) s = .next (s.completeField fd (montmul s.geom.W (s.readF fs1) (s.readF fs2) s.cp)) := by
  obtain ⟨hp, hodd, hu, hv⟩ := h
  exact congrArg _ (if_pos ⟨⟨hp, hu, hv⟩, hodd⟩)

theorem exec_modadd_of_precondition (h : Precondition (.modadd fd fs1 fs2) s) :
    exec (.modadd fd fs1 fs2) s = .next (s.completeField fd (addm (s.readF fs1) (s.readF fs2) s.cp)) :=
  congrArg _ (if_pos h)

theorem exec_modsub_of_precondition (h : Precondition (.modsub fd fs1 fs2) s) :
    exec (.modsub fd fs1 fs2) s = .next (s.completeField fd (subm (s.readF fs1) (s.readF fs2) s.cp)) :=
  congrArg _ (if_pos h)

theorem exec_padd_of_precondition (h : Precondition (.padd pd ps1 ps2) s) :
    exec (.padd pd ps1 ps2) s = .next (s.completePoint pd (add s.cp (s.readPt ps1) (s.readPt ps2))) := by
  obtain ⟨hprime, hodd, hP, hQ⟩ := h
  exact congrArg _ (if_pos ⟨(oddPrime_iff _).mpr ⟨hprime, hodd⟩, hP, hQ⟩)

theorem exec_pdbl_of_precondition (h : Precondition (.pdbl pd ps1) s) :
    exec (.pdbl pd ps1) s = .next (s.completePoint pd (double s.ca s.cb s.cp (s.readPt ps1))) := by
  obtain ⟨hc, hP⟩ := h
  exact congrArg _ (if_pos ⟨hc.oddPrime, hc.a_lt, hc.b_lt, hP⟩)

theorem exec_pchk_of_precondition (h : Precondition (.pchk ps1) s) :
    exec (.pchk ps1) s = .next (s.completeCheck (isOnCurve s.ca s.cb s.cp (s.readPt ps1))) := by
  obtain ⟨hc, hP⟩ := h
  exact congrArg _ (if_pos ⟨hc.oddPrime, hc.a_lt, hc.b_lt, hP⟩)

/-- The part that the two scalar multipliers share. -/
theorem scalarUnit_of_curveParams (hc : CurveParams s.ca s.cb s.cp) (hP : (s.readPt ps1).reduced s.cp ∨ s.k = 0)
    (mul : Nat → Nat → Nat → Point → Nat → Except ErrorKind Point) :
    s.scalarUnit mul pd ps1 = s.completePoint pd (mul s.ca s.cb s.cp (s.readPt ps1) s.k) :=
  if_pos ⟨hc.oddPrime, hc.a_lt, hc.b_lt, hP⟩

theorem exec_smulda_of_precondition (h : Precondition (.smulda pd ps1) s) : exec (.smulda pd ps1) s =
    .next (s.completePoint pd (scalarMulDoubleAndAdd s.ca s.cb s.cp (s.readPt ps1) s.k)) :=
  congrArg _ (scalarUnit_of_curveParams h.1 h.2 _)

theorem exec_smulml_of_precondition (h : Precondition (.smulml pd ps1) s) : exec (.smulml pd ps1) s =
    .next (s.completePoint pd (scalarMulLadder s.ca s.cb s.cp (s.readPt ps1) s.k)) :=
  congrArg _ (scalarUnit_of_curveParams h.1 h.2 _)

theorem exec_clrerr (s : State) :
    exec .clrerr s = .next (s.setStatus (statusWithSticky s.status false)).completeOk := rfl

end UnderPrecondition

/-! ### A result depends on the operands alone -/

/-- Two states after a command show the same completion code and the same result (00_scope.md rule R2). -/
def SameResult (i : Instr) (s' t' : State) : Prop :=
  statusErr s'.status = statusErr t'.status ∧
  (∀ fd, fieldDest i = some fd → s'.readF fd = t'.readF fd) ∧
  (∀ pd, pointDest i = some pd → statusErr s'.status = 0 → s'.readPt pd = t'.readPt pd) ∧
  (∀ ps1, i = .pchk ps1 → statusOnc s'.status = statusOnc t'.status)

/-- A precondition speaks of the operands alone. -/
theorem SameOperands.precondition_iff {i : Instr} {s t : State} (h : SameOperands i s t) :
    Precondition i s ↔ Precondition i t := by
  cases i with
  | montmul | modadd | modsub =>
    obtain ⟨-, hcp, hu, hv⟩ := h
    simp only [Precondition, hcp, hu, hv]
  | padd =>
    obtain ⟨-, hcp, hP, hQ⟩ := h
    simp only [Precondition, hcp, hP, hQ]
  | pdbl | pchk =>
    obtain ⟨-, hca, hcb, hcp, hP⟩ := h
    simp only [Precondition, hca, hcb, hcp, hP]
  | smulda | smulml =>
    obtain ⟨-, hca, hcb, hcp, hk, hP⟩ := h
    simp only [Precondition, hca, hcb, hcp, hk, hP]
  | clrerr => exact Iff.rfl

section SameCompletion
variable {i : Instr} (s t : State)

/-- Completing with the same field value shows the same result. -/
theorem sameResult_completeField {fd : FIdx} (hfd : fieldDest i = some fd) (hpd : pointDest i = none)
    (v : Nat) : SameResult i (s.completeField fd v) (t.completeField fd v) := by
  refine ⟨(completeField_status fd v).err.trans (completeField_status fd v).err.symm,
    fun fd' h => ?_, fun pd h => ?_, fun ps1 h => ?_⟩
  · obtain rfl : fd = fd' := Option.some.inj (hfd.symm.trans h)
    simp only [completeField_readF, if_true]
  · cases hpd.symm.trans h
  · cases h ▸ hfd

/-- Completing with the same point, or with the same error, shows the same result. -/
theorem sameResult_completePoint {pd : PIdx} (hpd : pointDest i = some pd) (hfd : fieldDest i = none)
    (r : Except ErrorKind Point) :
    SameResult i (s.completePoint pd r) (t.completePoint pd r) := by
  have hfield (fd : FIdx) (h : fieldDest i = some fd) :
      (s.completePoint pd r).readF fd = (t.completePoint pd r).readF fd := by cases hfd.symm.trans h
  have hcheck (ps1 : PIdx) (h : i = .pchk ps1) :
      statusOnc (s.completePoint pd r).status = statusOnc (t.completePoint pd r).status := by cases h ▸ hpd
  match r with
  | .ok R =>
    refine ⟨(completePoint_ok_status pd R).err.trans (completePoint_ok_status pd R).err.symm, hfield,
      fun pd' h _ => ?_, hcheck⟩
    obtain rfl : pd = pd' := Option.some.inj (hpd.symm.trans h)
    simp only [completePoint_ok_readPt, if_true]
  | .error e =>
    have herr (u : State) : statusErr (u.completePoint pd (.error e)).status = e.code := (completeError_statusError e).err
    exact ⟨(herr s).trans (herr t).symm, hfield, fun _ _ h0 => absurd ((herr s).symm.trans h0) (code_ne_zero e), hcheck⟩

/-- Completing with the same outcome of the on-curve check shows the same result. -/
theorem sameResult_completeCheck (ps1 : PIdx) (r : Bool) :
    SameResult (.pchk ps1) (s.completeCheck r) (t.completeCheck r) :=
  ⟨by simp, by simp [fieldDest], by simp [pointDest], by simp⟩

end SameCompletion

/-- From two states with the same operands a command completes alike. -/
theorem exec_sameResult {i : Instr} {s t : State} (hop : SameOperands i s t) (hs : Precondition i s) :
    ∃ s' t', exec i s = .next s' ∧ exec i t = .next t' ∧ SameResult i s' t' := by
  have ht := hop.precondition_iff.mp hs
  cases i with
  | montmul fd fs1 fs2 =>
    refine ⟨_, _, exec_montmul_of_precondition hs, exec_montmul_of_precondition ht, ?_⟩
    obtain ⟨hgeom, hcp, hu, hv⟩ := hop
    rw [hgeom, hcp, hu, hv]
    exact sameResult_completeField s t rfl rfl _
  | modadd fd fs1 fs2 =>
    refine ⟨_, _, exec_modadd_of_precondition hs, exec_modadd_of_precondition ht, ?_⟩
    obtain ⟨-, hcp, hu, hv⟩ := hop
    rw [hcp, hu, hv]
    exact sameResult_completeField s t rfl rfl _
  | modsub fd fs1 fs2 =>
    refine ⟨_, _, exec_modsub_of_precondition hs, exec_modsub_of_precondition ht, ?_⟩
    obtain ⟨-, hcp, hu, hv⟩ := hop
    rw [hcp, hu, hv]
    exact sameResult_completeField s t rfl rfl _
  | padd pd ps1 ps2 =>
    refine ⟨_, _, exec_padd_of_precondition hs, exec_padd_of_precondition ht, ?_⟩
    obtain ⟨-, hcp, hP, hQ⟩ := hop
    rw [hcp, hP, hQ]
    exact sameResult_completePoint s t rfl rfl _
  | pdbl pd ps1 =>
    refine ⟨_, _, exec_pdbl_of_precondition hs, exec_pdbl_of_precondition ht, ?_⟩
    obtain ⟨-, hca, hcb, hcp, hP⟩ := hop
    rw [hca, hcb, hcp, hP]
    exact sameResult_completePoint s t rfl rfl _
  | smulda pd ps1 =>
    refine ⟨_, _, exec_smulda_of_precondition hs, exec_smulda_of_precondition ht, ?_⟩
    obtain ⟨-, hca, hcb, hcp, hk, hP⟩ := hop
    rw [hca, hcb, hcp, hk, hP]
    exact sameResult_completePoint s t rfl rfl _
  | smulml pd ps1 =>
    refine ⟨_, _, exec_smulml_of_precondition hs, exec_smulml_of_precondition ht, ?_⟩
    obtain ⟨-, hca, hcb, hcp, hk, hP⟩ := hop
    rw [hca, hcb, hcp, hk, hP]
    exact sameResult_completePoint s t rfl rfl _
  | pchk ps1 =>
    refine ⟨_, _, exec_pchk_of_precondition hs, exec_pchk_of_precondition ht, ?_⟩
    obtain ⟨-, hca, hcb, hcp, hP⟩ := hop
    rw [hca, hcb, hcp, hP]
    exact sameResult_completeCheck s t ps1 _
  | clrerr =>
    exact ⟨_, _, exec_clrerr s, exec_clrerr t, by simp, by simp [fieldDest], by simp [pointDest], by simp⟩

/-- Settles O23: a command's completion is a function of its operands, and each completion shows the value it is given. -/
theorem resultsDependOnOperandsAlone : Obligations.ResultsDependOnOperandsAlone := by
  intro i s t s' t' hop hs hs' ht'
  obtain ⟨u, v, hu, hv, h⟩ := exec_sameResult hop hs
  obtain rfl : u = s' := by simpa [hu] using hs'
  obtain rfl : v = t' := by simpa [hv] using ht'
  exact h

end Sys2Proof.Machine
end

section
/-! PROOFS. The statements of 10_state.md: the five ways in which a command completes, and from them what a command does
to STATUS (rules R17, R18), to the other registers (rule R19) and to the host's side (rule R16); then reset (rule R21). -/

namespace Sys2Proof.Machine

/-! ### The errors that the point functions raise

None of them raises IllegalCommand, the error of an illegal word alone (60_exceptions.md rule R180). -/

section Errors
variable {α β : Type} {a b p : Nat}

theorem bind_ne_error {e : ErrorKind} {x : Except ErrorKind α} {f : α → Except ErrorKind β} (hx : x ≠ .error e)
    (hf : ∀ v, f v ≠ .error e) : (x >>= f) ≠ .error e := by
  cases x with
  | error _ =>
    rintro ⟨⟩
    exact hx rfl
  | ok v => exact hf v

theorem foldlM_ne_error {e : ErrorKind} {f : β → α → Except ErrorKind β} (hf : ∀ w v, f w v ≠ .error e)
    (l : List α) : ∀ w, l.foldlM f w ≠ .error e := by
  induction l with
  | nil => exact fun _ h => nomatch h
  | cons v l ih => exact fun w => bind_ne_error (hf w v) ih

theorem invm_ne_illegalCommand (v p : Nat) : invm v p ≠ .error .illegalCommand := by
  unfold invm
  split <;> simp

theorem add_ne_illegalCommand (P Q : Point) : add p P Q ≠ .error .illegalCommand := by
  unfold add
  split
  · simp
  split
  · simp
  split
  · simp
  split
  · simp
  split
  · next h =>
    rintro ⟨⟩
    exact invm_ne_illegalCommand _ p h
  · simp

theorem double_ne_illegalCommand (P : Point) : double a b p P ≠ .error .illegalCommand := by
  unfold double
  split
  · simp
  split
  · split
    · next h =>
      rintro ⟨⟩
      exact invm_ne_illegalCommand _ p h
    · simp
  · simp

theorem dblAddStep_ne_illegalCommand (w : Point × Point) (set : Bool) :
    dblAddStep a b p w set ≠ .error .illegalCommand := by
  have hdouble (Q : Point) : (do let P ← double a b p w.2; return (Q, P)) ≠ .error .illegalCommand :=
    bind_ne_error (double_ne_illegalCommand _) (fun _ h => nomatch h)
  cases set with
  | false => exact hdouble _
  | true => exact bind_ne_error (add_ne_illegalCommand _ _) hdouble

theorem scalarMulDoubleAndAdd_ne_illegalCommand (P : Point) (k : Nat) :
    scalarMulDoubleAndAdd a b p P k ≠ .error .illegalCommand :=
  bind_ne_error (foldlM_ne_error dblAddStep_ne_illegalCommand _ _) (fun _ h => nomatch h)

theorem ladderStep_ne_illegalCommand (w : Point × Point) (set : Bool) :
    ladderStep a b p w set ≠ .error .illegalCommand :=
  bind_ne_error (add_ne_illegalCommand _ _) fun _ =>
    bind_ne_error (double_ne_illegalCommand _) (fun _ h => nomatch h)

theorem scalarMulLadder_ne_illegalCommand (P : Point) (k : Nat) :
    scalarMulLadder a b p P k ≠ .error .illegalCommand :=
  bind_ne_error (foldlM_ne_error ladderStep_ne_illegalCommand _ _) (fun _ h => nomatch h)

end Errors

/-! ### The five ways in which a command completes -/

/-- The effect `f` on the state is a way in which the command `i` completes: with code 0 and its field or its point register
written; for a point command, with an error and nothing written; for PCHK, with ONC written; for CLRERR, with STICKY
cleared. Each uses up some number `n` of free values (log 4). -/
def CompletesAs (i : Instr) (f : State → State) : Prop :=
  (∃ fd v n, fieldDest i = some fd ∧ f = fun s => ((s.setF fd v).useFresh n).completeOk) ∨
  (∃ pd r n, pointDest i = some pd ∧ f = fun s => ((s.setPt pd r).useFresh n).completeOk) ∨
  (∃ pd e n, pointDest i = some pd ∧ e ≠ .illegalCommand ∧ f = fun s => (s.useFresh n).completeError e) ∨
  (∃ ps1 onc n, i = .pchk ps1 ∧ f = fun s => (s.useFresh n).completeCheck onc) ∨
  (i = .clrerr ∧ f = fun s => (s.setStatus (statusWithSticky s.status false)).completeOk)

theorem code_le_three {e : ErrorKind} (h : e ≠ .illegalCommand) : e.code.toNat ≤ 3 := by
  cases e with
  | illegalCommand => exact absurd rfl h
  | notOnCurve | equalPoints | undefinedInverse => decide

namespace CompletesAs
variable {i : Instr} {f : State → State}

theorem field {fd : FIdx} (hfd : fieldDest i = some fd) (v n : Nat) :
    CompletesAs i fun s => ((s.setF fd v).useFresh n).completeOk := .inl ⟨fd, v, n, hfd, rfl⟩

theorem point {pd : PIdx} (hpd : pointDest i = some pd) (r : PointReg) (n : Nat) :
    CompletesAs i fun s => ((s.setPt pd r).useFresh n).completeOk := .inr (.inl ⟨pd, r, n, hpd, rfl⟩)

theorem error {pd : PIdx} (hpd : pointDest i = some pd) {e : ErrorKind} (he : e ≠ .illegalCommand) (n : Nat) :
    CompletesAs i fun s => (s.useFresh n).completeError e := .inr (.inr (.inl ⟨pd, e, n, hpd, he, rfl⟩))

theorem check (ps1 : PIdx) (onc : Bool) (n : Nat) :
    CompletesAs (.pchk ps1) fun s => (s.useFresh n).completeCheck onc :=
  .inr (.inr (.inr (.inl ⟨ps1, onc, n, rfl, rfl⟩)))

theorem clear : CompletesAs .clrerr fun s => (s.setStatus (statusWithSticky s.status false)).completeOk :=
  .inr (.inr (.inr (.inr ⟨rfl, rfl⟩)))

/-- ERR is the code of the completion, whatever the state was. -/
theorem exists_err (h : CompletesAs i f) : ∃ c : BitVec 3, c.toNat ≤ 3 ∧ ∀ s, statusErr (f s).status = c := by
  obtain ⟨_, _, _, _, rfl⟩ | ⟨_, _, _, _, rfl⟩ | ⟨_, e, _, _, he, rfl⟩ | ⟨_, _, _, _, rfl⟩ | ⟨_, rfl⟩ := h
  case inr.inr.inl => exact ⟨e.code, code_le_three he, by simp⟩
  all_goals exact ⟨0, by simp, by simp⟩

theorem sticky (h : CompletesAs i f) (hi : i ≠ .clrerr) (s : State) :
    statusSticky (f s).status = (statusSticky s.status || statusErr (f s).status != 0) := by
  obtain ⟨_, _, _, _, rfl⟩ | ⟨_, _, _, _, rfl⟩ | ⟨_, e, _, _, _, rfl⟩ | ⟨_, _, _, _, rfl⟩ | ⟨rfl, _⟩ := h
  case inr.inr.inl => simpa using Or.inr (code_ne_zero e)
  case inr.inr.inr.inr => exact absurd rfl hi
  all_goals simp

theorem sticky_clrerr (h : CompletesAs .clrerr f) (s : State) : statusSticky (f s).status = false := by
  obtain ⟨_, _, _, h, _⟩ | ⟨_, _, _, h, _⟩ | ⟨_, _, _, h, _⟩ | ⟨_, _, _, h, _⟩ | ⟨_, rfl⟩ := h
  case inr.inr.inr.inr => simp
  all_goals cases h

theorem onc (h : CompletesAs i f) (hi : ∀ ps1, i ≠ .pchk ps1) (s : State) :
    statusOnc (f s).status = statusOnc s.status := by
  obtain ⟨_, _, _, _, rfl⟩ | ⟨_, _, _, _, rfl⟩ | ⟨_, _, _, _, _, rfl⟩ | ⟨ps1, _, _, rfl, _⟩ | ⟨_, rfl⟩ := h
  case inr.inr.inr.inl => exact absurd rfl (hi ps1)
  all_goals simp

/-- ONC after PCHK is the result of the check, whatever the state was. -/
theorem onc_pchk {ps1 : PIdx} (h : CompletesAs (.pchk ps1) f) (s t : State) :
    statusOnc (f s).status = statusOnc (f t).status := by
  obtain ⟨_, _, _, h, _⟩ | ⟨_, _, _, h, _⟩ | ⟨_, _, _, h, _⟩ | ⟨_, _, _, _, rfl⟩ | ⟨h, _⟩ := h
  case inr.inr.inr.inl => simp
  all_goals cases h

theorem reserved (h : CompletesAs i f) (s : State) : statusReserved (f s).status = statusReserved s.status := by
  obtain ⟨_, _, _, _, rfl⟩ | ⟨_, _, _, _, rfl⟩ | ⟨_, _, _, _, _, rfl⟩ | ⟨_, _, _, _, rfl⟩ | ⟨_, rfl⟩ := h <;> simp

theorem frame (h : CompletesAs i f) (s : State) : Frame (fieldDest i) (pointDest i) s (f s) := by
  obtain ⟨fd, v, _, hfd, rfl⟩ | ⟨pd, r, _, hpd, rfl⟩ | ⟨_, _, _, _, _, rfl⟩ | ⟨_, _, _, _, rfl⟩ | ⟨_, rfl⟩ := h
  · exact hfd ▸ frame_of_field _ fd v _ _ rfl
  · exact hpd ▸ frame_of_point _ pd r _ _ rfl
  all_goals exact frame_of_status _ _ _ _ rfl

/-- What a completion leaves in the registers other than STATUS does not depend on STATUS. -/
theorem apply_setStatus (h : CompletesAs i f) (s : State) (st : StatusWord) :
    f (s.setStatus st) = (f s).setStatus (f (s.setStatus st)).status := by
  obtain ⟨_, _, _, _, rfl⟩ | ⟨_, _, _, _, rfl⟩ | ⟨_, _, _, _, _, rfl⟩ | ⟨_, _, _, _, rfl⟩ | ⟨_, rfl⟩ := h <;> rfl

end CompletesAs

/-! ### Every command completes in one of them, chosen without reading STATUS -/

/-- From `s`, and from every state that differs from `s` in STATUS alone, `f` completes the command `i` in one and the
same way. -/
def CompletesBy (i : Instr) (s : State) (f : State → State) : Prop :=
  ∃ c, CompletesAs i c ∧ ∀ st, f (s.setStatus st) = c (s.setStatus st)

section Exec
variable {i : Instr} {s : State}

theorem completesBy_field {fd : FIdx} (hfd : fieldDest i = some fd) (param : Prop) [Decidable param] (v : Nat) :
    CompletesBy i s fun t => if param then t.completeField fd v else t.completeFieldUnspecified fd := by
  by_cases h : param
  · exact ⟨_, .field hfd v 0, fun _ => if_pos h⟩
  · exact ⟨_, .field hfd (s.freeField 0) 1, fun _ => if_neg h⟩

theorem completesBy_completePoint {pd : PIdx} (hpd : pointDest i = some pd) {r : Except ErrorKind Point}
    (hr : r ≠ .error .illegalCommand) : CompletesBy i s fun t => t.completePoint pd r := by
  obtain e | _ | ⟨x, y⟩ := r
  · exact ⟨_, .error hpd (fun he => hr (congrArg _ he)) 0, fun _ => rfl⟩
  · exact ⟨_, .point hpd ⟨true, s.freeField 0, s.freeField 1⟩ 2, fun _ => rfl⟩
  · exact ⟨_, .point hpd ⟨false, x, y⟩ 0, fun _ => rfl⟩

theorem completesBy_completePointUnspecified {pd : PIdx} (hpd : pointDest i = some pd) :
    CompletesBy i s fun t => t.completePointUnspecified pd := by
  simp only [CompletesBy, State.completePointUnspecified, setStatus_fresh]
  cases h : errorOfCode (Config.freeCode s.fresh) with
  | none => exact ⟨_, .point hpd (s.freePointReg 1) 4, fun _ => rfl⟩
  | some e => exact ⟨_, .error hpd (errorOfCode_some h).1 4, fun _ => rfl⟩

theorem completesBy_point {pd : PIdx} (hpd : pointDest i = some pd) (param : Prop) [Decidable param]
    {r : Except ErrorKind Point} (hr : r ≠ .error .illegalCommand) :
    CompletesBy i s fun t => if param then t.completePoint pd r else t.completePointUnspecified pd := by
  by_cases h : param
  · simpa only [h, if_true] using completesBy_completePoint hpd hr
  · simpa only [h, if_false] using completesBy_completePointUnspecified hpd

theorem completesBy_check {ps1 : PIdx} (param : Prop) [Decidable param] (r : Bool) :
    CompletesBy (.pchk ps1) s fun t =>
      if param then t.completeCheck r else (t.useFresh 1).completeCheck (t.freeBit 0) := by
  by_cases h : param
  · exact ⟨_, .check ps1 r 0, fun _ => if_pos h⟩
  · exact ⟨_, .check ps1 (s.freeBit 0) 1, fun _ => if_neg h⟩

theorem completesBy_clear :
    CompletesBy .clrerr s fun t => (t.setStatus (statusWithSticky t.status false)).completeOk :=
  ⟨_, .clear, fun _ => rfl⟩

/-- Whatever STATUS holds, a command completes in the way that its other registers determine. -/
theorem exec_completes (i : Instr) (s : State) :
    ∃ c, CompletesAs i c ∧ ∀ st, exec i (s.setStatus st) = .next (c (s.setStatus st)) := by
  suffices h : ∃ f, (∀ st, exec i (s.setStatus st) = .next (f (s.setStatus st))) ∧ CompletesBy i s f by
    obtain ⟨f, hf, c, hc, hfc⟩ := h
    exact ⟨c, hc, fun st => (hf st).trans (congrArg _ (hfc st))⟩
  cases i with
  | montmul fd fs1 fs2 =>
    exact ⟨_, fun _ => rfl, completesBy_field rfl (ParamMont s.cp (s.readF fs1) (s.readF fs2))
      (montmul s.geom.W (s.readF fs1) (s.readF fs2) s.cp)⟩
  | modadd fd fs1 fs2 =>
    exact ⟨_, fun _ => rfl, completesBy_field rfl (ParamField s.cp (s.readF fs1) (s.readF fs2))
      (addm (s.readF fs1) (s.readF fs2) s.cp)⟩
  | modsub fd fs1 fs2 =>
    exact ⟨_, fun _ => rfl, completesBy_field rfl (ParamField s.cp (s.readF fs1) (s.readF fs2))
      (subm (s.readF fs1) (s.readF fs2) s.cp)⟩
  | padd pd ps1 ps2 =>
    exact ⟨_, fun _ => rfl, completesBy_point rfl (ParamAdd s.cp (s.readPt ps1) (s.readPt ps2))
      (add_ne_illegalCommand (s.readPt ps1) (s.readPt ps2))⟩
  | pdbl pd ps1 =>
    exact ⟨_, fun _ => rfl, completesBy_point rfl (ParamCurve s.ca s.cb s.cp (s.readPt ps1))
      (double_ne_illegalCommand (s.readPt ps1))⟩
  | smulda pd ps1 =>
    exact ⟨_, fun _ => rfl, completesBy_point rfl (ParamScalar s.ca s.cb s.cp s.k (s.readPt ps1))
      (scalarMulDoubleAndAdd_ne_illegalCommand (s.readPt ps1) s.k)⟩
  | smulml pd ps1 =>
    exact ⟨_, fun _ => rfl, completesBy_point rfl (ParamScalar s.ca s.cb s.cp s.k (s.readPt ps1))
      (scalarMulLadder_ne_illegalCommand (s.readPt ps1) s.k)⟩
  | pchk ps1 =>
    exact ⟨_, fun _ => rfl, completesBy_check (ParamCurve s.ca s.cb s.cp (s.readPt ps1))
      (isOnCurve s.ca s.cb s.cp (s.readPt ps1))⟩
  | clrerr => exact ⟨_, fun _ => rfl, completesBy_clear⟩

/-- A state that a command answers is one that a completion leaves. -/
theorem exists_completion_of_exec {t : State} (h : exec i s = .next t) : ∃ c, CompletesAs i c ∧ t = c s := by
  obtain ⟨c, hc, hexec⟩ := exec_completes i s
  exact ⟨c, hc, Host.Outcome.next.inj (h.symm.trans (hexec s.status))⟩

end Exec

/-! ### STATUS and the other registers after a command -/

/-- Settles O17: each flag after each of the five ways to complete. -/
theorem commandsWriteTheFlagsOfRuleR18 : Obligations.CommandsWriteTheFlagsOfRuleR18 := by
  intro i s t h
  obtain ⟨c, hc, rfl⟩ := exists_completion_of_exec h
  obtain ⟨code, hle, herr⟩ := hc.exists_err
  refine ⟨herr s ▸ hle, fun hi => hc.sticky hi s, ?_, fun hi => hc.onc hi s, hc.reserved s⟩
  rintro rfl
  exact hc.sticky_clrerr s

/-- Settles O18: the way to complete is chosen without reading STATUS, and leaves the same but for STATUS. -/
theorem commandsDoNotReadStatus : Obligations.CommandsDoNotReadStatus := by
  intro i s st
  obtain ⟨c, hc, hexec⟩ := exec_completes i s
  obtain ⟨code, -, herr⟩ := hc.exists_err
  refine ⟨c s, c (s.setStatus st), hexec s.status, hexec st, hc.apply_setStatus s st, ?_, ?_⟩
  · rw [herr, herr]
  · rintro ps1 rfl
    exact hc.onc_pchk _ _

/-- Settles O20: each way to complete writes the command's destination alone. -/
theorem commandsWriteOnlyTheirDestination : Obligations.CommandsWriteOnlyTheirDestination := by
  intro i s t h
  obtain ⟨c, hc, rfl⟩ := exists_completion_of_exec h
  exact hc.frame s

/-! ### The host's side -/

/-- The host's side and the widths W and KW are as before. -/
def KeepsHostAndGeom (s t : State) : Prop := KeepsHost s t ∧ t.geom = s.geom

section HostSide
variable {s t : State}

theorem Frame.keepsHostAndGeom {fd : Option FIdx} {pd : Option PIdx} (h : Frame fd pd s t) : KeepsHostAndGeom s t :=
  ⟨h.2, h.1.geom⟩

theorem runCommand_keepsHostAndGeom {w : CmdWord} (h : runCommand w s = .next t) : KeepsHostAndGeom s t := by
  unfold runCommand at h
  split at h
  · exact (commandsWriteOnlyTheirDestination _ _ _ h).keepsHostAndGeom
  · cases h
    exact (completeError_frame none none _).keepsHostAndGeom

theorem writeSel_keepsHostAndGeom (r : Option Sel) (v : Nat) : KeepsHostAndGeom s (s.writeSel r v) := by
  rcases r with _ | r
  · exact ⟨⟨rfl, rfl, rfl⟩, rfl⟩
  · cases r <;> exact ⟨⟨rfl, rfl, rfl⟩, rfl⟩

theorem performWr_keepsHostAndGeom {sel : Selector} {v : Nat} (h : performWr sel v s = .next t) :
    KeepsHostAndGeom s t := by
  unfold performWr at h
  split at h
  · exact runCommand_keepsHostAndGeom h
  · cases h
    exact writeSel_keepsHostAndGeom _ v

theorem step_of_pending {e : HostEvent} {rest : List HostEvent} (h : s.pending = e :: rest) :
    step s = performEvent e (s.advance rest) := by
  simp only [step, nextEvent, h]

end HostSide

theorem readSel_advance (s : State) (rest : List HostEvent) (r : Option Sel) :
    (s.advance rest).readSel r = s.readSel r := rfl

/-- Settles O11: taking the event moves the index, and no event's effect moves it again; only a RD adds a response. -/
theorem stepTakesOneHostEvent : Obligations.StepTakesOneHostEvent := by
  intro s e rest t hp h
  rw [step_of_pending hp] at h
  cases e with
  | wr sel v =>
    obtain ⟨⟨hpending, hpc, hresponses⟩, hgeom⟩ := performWr_keepsHostAndGeom h
    exact ⟨hpending, hpc, hgeom, hresponses⟩
  | rd sel =>
    cases h
    exact ⟨rfl, rfl, rfl, congrArg (· :: s.responses) (readSel_advance s rest _)⟩
  | reset =>
    cases h
    exact ⟨rfl, rfl, rfl, rfl⟩

/-! ### Reset -/

/-- Settles O55: the state after reset is given in full, so its STATUS computes. -/
theorem resetLeavesStatusZero : Obligations.ResetLeavesStatusZero := by
  intro g
  rw [resetOf_status]
  exact ⟨rfl, by decide, by decide, by decide, by decide, rfl⟩

theorem resetOf_wf {g : Config.Geometry} (h : g.Valid) : (State.resetOf g).Wf where
  geom_valid := h
  ca_lt := Nat.two_pow_pos _
  cb_lt := Nat.two_pow_pos _
  cp_lt := Nat.two_pow_pos _
  k_lt := Nat.two_pow_pos _
  f_lt i := by rw [resetOf_readF]; exact Nat.two_pow_pos _
  x_lt n := by rw [resetOf_pt]; exact Nat.two_pow_pos _
  y_lt n := by rw [resetOf_pt]; exact Nat.two_pow_pos _
  err_le := statusWf_zero.err_le
  reserved_zero := statusWf_zero.reserved_zero
  sticky_of_err := statusWf_zero.sticky_of_err

/-- Settles O57: every register is 0 after reset, below every power of 2. -/
theorem resetStateIsWellFormed : Obligations.ResetStateIsWellFormed :=
  ⟨fun _ => resetOf_wf, resetOf_wf (by decide)⟩

end Sys2Proof.Machine
end

section
/-! PROOFS. The statements of 20_memory.md: what a transaction of the host port does (rules R41, R44), and what a RD returns
after a WR (rules R42, R43, R45). -/

namespace Sys2Proof

/-! ### The word of a command decodes to the command (30_encoding.md rule R63) -/

section OperandForms
variable (op : Nibble)

theorem decodeFFF_ofNat (mk : FIdx → FIdx → FIdx → Instr) (d a b : FIdx) :
    decodeFFF mk ⟨op, BitVec.ofNat 4 d, BitVec.ofNat 4 a, BitVec.ofNat 4 b⟩ = .ok (mk d a b) := by
  simp only [decodeFFF, fieldIndex_ofNat]
  rfl

theorem decodePPP_ofNat (mk : PIdx → PIdx → PIdx → Instr) (d a b : PIdx) :
    decodePPP mk ⟨op, BitVec.ofNat 4 d, BitVec.ofNat 4 a, BitVec.ofNat 4 b⟩ = .ok (mk d a b) := by
  simp only [decodePPP, pointIndex_ofNat]
  rfl

theorem decodePP_ofNat (mk : PIdx → PIdx → Instr) (d a : PIdx) :
    decodePP mk ⟨op, BitVec.ofNat 4 d, BitVec.ofNat 4 a, 0⟩ = .ok (mk d a) := by
  simp only [decodePP, pointIndex_ofNat]
  rfl

theorem decodeP_ofNat (mk : PIdx → Instr) (a : PIdx) : decodeP mk ⟨op, 0, BitVec.ofNat 4 a, 0⟩ = .ok (mk a) := by
  simp only [decodeP, pointIndex_ofNat]
  rfl

end OperandForms

theorem decodeFields_fields (i : Instr) : decodeFields i.fields = .ok i := by
  cases i with
  | montmul fd fs1 fs2 => exact decodeFFF_ofNat 1 .montmul fd fs1 fs2
  | modadd fd fs1 fs2 => exact decodeFFF_ofNat 2 .modadd fd fs1 fs2
  | modsub fd fs1 fs2 => exact decodeFFF_ofNat 3 .modsub fd fs1 fs2
  | padd pd ps1 ps2 => exact decodePPP_ofNat 4 .padd pd ps1 ps2
  | pdbl pd ps1 => exact decodePP_ofNat 5 .pdbl pd ps1
  | smulda pd ps1 => exact decodePP_ofNat 6 .smulda pd ps1
  | smulml pd ps1 => exact decodePP_ofNat 7 .smulml pd ps1
  | pchk ps1 => exact decodeP_ofNat 8 .pchk ps1
  | clrerr => rfl

theorem decode_encode (i : Instr) : decode (encode i) = .ok i := by
  rw [decode, wordFields_encode, decodeFields_fields]

end Sys2Proof

namespace Sys2Proof.Machine

/-! ### The two transactions (rule R41) -/

section Transactions
variable {s : State} {sel : Selector} {v : Nat} {rest : List HostEvent}

theorem runCommand_of_decode {w : CmdWord} {i : Instr} (h : decode w = .ok i) (s : State) :
    runCommand w s = exec i s := by
  rw [runCommand, h]

theorem performWr_of_ne_cmd (h : decodeSel sel ≠ some .cmd) (v : Nat) (s : State) :
    performWr sel v s = .next (s.writeSel (decodeSel sel) v) := by
  unfold performWr
  split
  · next hcmd => exact absurd hcmd h
  · rfl

theorem step_wr_cmd (hp : s.pending = .wr 0x00 v :: rest) :
    step s = runCommand (BitVec.ofNat 16 v) (s.advance rest) := step_of_pending hp

theorem step_wr (hp : s.pending = .wr sel v :: rest) (h : decodeSel sel ≠ some .cmd) :
    step s = .next ((s.advance rest).writeSel (decodeSel sel) v) :=
  (step_of_pending hp).trans (performWr_of_ne_cmd h v _)

theorem step_rd (hp : s.pending = .rd sel :: rest) :
    step s = .next ((s.advance rest).respond (s.readSel (decodeSel sel))) := step_of_pending hp

/-- A WR to the selector of a read/write register writes that register. -/
theorem step_wr_encodeSel {r : Sel} (hr : r.isReadWrite = true) (hp : s.pending = .wr (encodeSel r) v :: rest) :
    step s = .next ((s.advance rest).writeSel (some r) v) := by
  have hsel := decodeSel_encodeSel r
  have hcmd : decodeSel (encodeSel r) ≠ some .cmd := by
    rw [hsel]
    rintro ⟨⟩
    cases hr
  rw [step_wr hp hcmd, hsel]

theorem step_rd_encodeSel {r : Sel} (hp : s.pending = .rd (encodeSel r) :: rest) :
    step s = .next ((s.advance rest).respond (s.readSel (some r))) := by
  rw [step_rd hp, decodeSel_encodeSel]

end Transactions

/-! ### Commands through the port -/

/-- Settles O6: selector 0x00 names CMD, and a WR to CMD runs its word. -/
theorem stepRunsTheDecodedCommand : Obligations.StepRunsTheDecodedCommand := by
  intro s v rest i hp hdecode
  exact (step_wr_cmd hp).trans (runCommand_of_decode hdecode _)

/-- Settles O7: a word of 16 bits arrives uncut, and a command's own word decodes to it. -/
theorem fetchedWordRunsItsCommand : Obligations.FetchedWordRunsItsCommand := by
  intro i s
  have hdecode : decode (BitVec.ofNat 16 ((encode i).toNat % 2 ^ 16)) = .ok i := by
    rw [Nat.mod_eq_of_lt (encode i).isLt, BitVec.ofNat_toNat, BitVec.setWidth_eq, decode_encode]
  exact stepRunsTheDecodedCommand (s.withFetchWord 16 (encode i).toNat) _ s.pending i rfl hdecode

/-! ### What a RD returns after a WR (rules R42, R43) -/

section ReadWrite
variable (s : State)

/-- A field `g` of a point register after a write to a point register. -/
theorem field_getPt_setPt (g : PointReg → Nat) (n m : PIdx) (r : PointReg) :
    g (s.setPt n r).pt[m] = if m = n then g r else g s.pt[m] := by
  rw [getPt_setPt, apply_ite g]

/-- A write to a point register that keeps the field `g` there keeps it in all of them. -/
theorem field_getPt_setPt_of_eq (g : PointReg → Nat) {n : PIdx} {r : PointReg} (h : g r = g s.pt[n]) (m : PIdx) :
    g (s.setPt n r).pt[m] = g s.pt[m] := by
  rw [field_getPt_setPt s g]
  split
  · next hm => rw [hm, h]
  · rfl

/-- INF takes the lowest bit of the value. -/
theorem mod_two_eq_toNat (v : Nat) : v % 2 = (v % 2 == 1).toNat := by
  obtain h | h := Nat.mod_two_eq_zero_or_one v <;> rw [h] <;> rfl

/-- What each register holds after a WR to a read/write register. -/
theorem readSel_writeSel {r : Sel} (hr : r.isReadWrite = true) (v : Nat) (r' : Sel) :
    (s.writeSel (some r) v).readSel (some r') = if r' = r then v % 2 ^ r.width s.geom else s.readSel (some r') := by
  cases r with
  | cmd | status => cases hr
  | ca | cb | cp | k => cases r' <;> rfl
  | f i =>
    cases r' with
    | f j =>
      simp only [Sel.f.injEq]
      exact readF_setF s i j _
    | _ => rfl
  | ptX n =>
    cases r' with
    | ptX m =>
      simp only [Sel.ptX.injEq]
      exact field_getPt_setPt s PointReg.x n m _
    | ptY m => exact field_getPt_setPt_of_eq s PointReg.y (by rfl) m
    | ptInf m => exact field_getPt_setPt_of_eq s (·.inf.toNat) (by rfl) m
    | _ => rfl
  | ptY n =>
    cases r' with
    | ptX m => exact field_getPt_setPt_of_eq s PointReg.x (by rfl) m
    | ptY m =>
      simp only [Sel.ptY.injEq]
      exact field_getPt_setPt s PointReg.y n m _
    | ptInf m => exact field_getPt_setPt_of_eq s (·.inf.toNat) (by rfl) m
    | _ => rfl
  | ptInf n =>
    cases r' with
    | ptX m => exact field_getPt_setPt_of_eq s PointReg.x (by rfl) m
    | ptY m => exact field_getPt_setPt_of_eq s PointReg.y (by rfl) m
    | ptInf m =>
      have hbit : v % 2 ^ (Sel.ptInf n).width s.geom = (v % 2 == 1).toNat := mod_two_eq_toNat v
      simp only [hbit, Sel.ptInf.injEq]
      exact field_getPt_setPt s (·.inf.toNat) n m _
    | _ => rfl

theorem writeSel_fresh (r : Sel) (v : Nat) : (s.writeSel (some r) v).fresh = s.fresh := by cases r <;> rfl

end ReadWrite

/-- Settles O13: a register after a WR is as `readSel_writeSel` says; the host's side and the widths are kept. -/
theorem writeChangesOneRegister : Obligations.WriteChangesOneRegister := by
  intro s r v rest hr hp
  have hread := readSel_writeSel (s.advance rest) hr v
  obtain ⟨hhost, hgeom⟩ := writeSel_keepsHostAndGeom (s := s.advance rest) (some r) v
  exact ⟨_, step_wr_encodeSel hr hp, (hread r).trans (if_pos rfl), fun r' hne => (hread r').trans (if_neg hne),
    hgeom, hhost.responses, writeSel_fresh _ r v⟩

/-- Settles O12: the RD finds the register as the WR left it, next on the host's list. -/
theorem readAfterWriteReturnsTheValueCut : Obligations.ReadAfterWriteReturnsTheValueCut := by
  intro s r v rest hr hp
  have hread := readSel_writeSel (s.advance (.rd (encodeSel r) :: rest)) hr v r
  obtain ⟨hhost, -⟩ := writeSel_keepsHostAndGeom (s := s.advance (.rd (encodeSel r) :: rest)) (some r) v
  refine ⟨_, _, step_wr_encodeSel hr hp, step_rd_encodeSel hhost.pending, ?_⟩
  rw [respond_responses, advance_responses, hhost.responses, hread, if_pos rfl]
  rfl

/-! ### The selector map (rules R42, R45) -/

theorem eq_ofNat_of_toNat_eq {sel : Selector} {n : Nat} (h : sel.toNat = n) : sel = BitVec.ofNat 8 n := by
  simp [← h]

/-- Settles O15: each clause gives the selector of a register and what that register holds. -/
theorem readReturnsTheNamedRegister : Obligations.ReadReturnsTheNamedRegister := by
  intro s rest i n sel v hmap hp
  have hnamed : ∃ r : Sel, sel = encodeSel r ∧ v = s.readSel (some r) := by
    obtain h | h | h | h | h | ⟨hsel, hv⟩ | ⟨hsel, hv⟩ | ⟨hsel, hv⟩ | ⟨hsel, hv⟩ := hmap
    · exact ⟨.status, h⟩
    · exact ⟨.ca, h⟩
    · exact ⟨.cb, h⟩
    · exact ⟨.cp, h⟩
    · exact ⟨.k, h⟩
    · exact ⟨.f i, eq_ofNat_of_toNat_eq hsel, hv⟩
    · exact ⟨.ptX n, eq_ofNat_of_toNat_eq hsel, hv⟩
    · exact ⟨.ptY n, eq_ofNat_of_toNat_eq hsel, hv⟩
    · exact ⟨.ptInf n, eq_ofNat_of_toNat_eq hsel, hv⟩
  obtain ⟨r, rfl, rfl⟩ := hnamed
  exact step_rd_encodeSel hp

theorem decodeSel_of_reserved {sel : Selector} (h : ReservedSelector sel) : decodeSel sel = none := by
  unfold decodeSel
  obtain h | h | ⟨n, h⟩ | h := h
  · rw [if_neg (by omega), dif_neg (by omega), dif_neg (by omega)]
  · rw [if_neg (by omega), dif_neg (by omega), dif_neg (by omega)]
  · have hmod : sel.toNat % 4 = 3 := by omega
    rw [if_neg (by omega), dif_neg (by omega), dif_pos (by omega)]
    simp only [hmod]
  · rw [if_neg (by omega), dif_neg (by omega), dif_neg (by omega)]

/-- Settles O14: STATUS and what names no register take nothing; CMD and what names no register read 0. -/
theorem reservedSelectorsAreInert : Obligations.ReservedSelectorsAreInert := by
  refine fun s sel v rest => ⟨fun hsel hp => ?_, fun hsel hp => ?_⟩
  · obtain rfl | hres := hsel
    · exact step_wr (sel := 0x01) hp (by decide)
    · have hnone := decodeSel_of_reserved hres
      rw [step_wr hp (by simp [hnone]), hnone]
      rfl
  · obtain rfl | hres := hsel
    · exact step_rd_encodeSel (r := .cmd) hp
    · rw [step_rd hp, decodeSel_of_reserved hres]
      rfl

end Sys2Proof.Machine
end

section
/-! PROOFS. The statements of 30_encoding.md: a word decodes to a command exactly when it is that command's word (rules R63,
R65), and the legal words are those whose fields are well formed (rule R62), in the opcode table's terms (rule R63) and in
those of rule R64; then an illegal word at the port, and the pseudo-instructions (rule R68). -/

namespace Sys2Proof

/-! ### A word decodes to a command exactly when it is the command's word -/

theorem bind_eq_ok_iff {ε α β : Type} {x : Except ε α} {f : α → Except ε β} {r : β} :
    x >>= f = .ok r ↔ ∃ a, x = .ok a ∧ f a = .ok r := by
  cases x with
  | error e => exact ⟨nofun, fun ⟨_, h, _⟩ => nomatch h⟩
  | ok a => exact ⟨fun h => ⟨a, rfl, h⟩, fun ⟨_, ha, h⟩ => Except.ok.inj ha ▸ h⟩

theorem fieldIndex_eq_ok_iff {v : Nibble} {i : FIdx} : fieldIndex v = .ok i ↔ v = BitVec.ofNat 4 i :=
  ⟨fun h => (ofNat_of_fieldIndex h).symm, fun h => h ▸ fieldIndex_ofNat i⟩

theorem pointIndex_eq_ok_iff {v : Nibble} {n : PIdx} : pointIndex v = .ok n ↔ v = BitVec.ofNat 4 n :=
  ⟨fun h => (ofNat_of_pointIndex h).symm, fun h => h ▸ pointIndex_ofNat n⟩

theorem mustBeZero_eq_ok_iff {v : Nibble} {u : Unit} : mustBeZero v = .ok u ↔ v = 0 :=
  ⟨eq_zero_of_mustBeZero, fun h => h ▸ mustBeZero_zero⟩

section OperandForms
variable {c : Fields} {i : Instr}

theorem eq_of_decodeFFF {mk : FIdx → FIdx → FIdx → Instr} (h : decodeFFF mk c = .ok i) :
    ∃ d a b, i = mk d a b ∧ c = ⟨c.op, BitVec.ofNat 4 d, BitVec.ofNat 4 a, BitVec.ofNat 4 b⟩ := by
  obtain ⟨op, rd, rs1, rs2⟩ := c
  simp only [decodeFFF, bind_eq_ok_iff, fieldIndex_eq_ok_iff] at h
  obtain ⟨d, rfl, a, rfl, b, rfl, ⟨⟩⟩ := h
  exact ⟨d, a, b, rfl, rfl⟩

theorem eq_of_decodePPP {mk : PIdx → PIdx → PIdx → Instr} (h : decodePPP mk c = .ok i) :
    ∃ d a b, i = mk d a b ∧ c = ⟨c.op, BitVec.ofNat 4 d, BitVec.ofNat 4 a, BitVec.ofNat 4 b⟩ := by
  obtain ⟨op, rd, rs1, rs2⟩ := c
  simp only [decodePPP, bind_eq_ok_iff, pointIndex_eq_ok_iff] at h
  obtain ⟨d, rfl, a, rfl, b, rfl, ⟨⟩⟩ := h
  exact ⟨d, a, b, rfl, rfl⟩

theorem eq_of_decodePP {mk : PIdx → PIdx → Instr} (h : decodePP mk c = .ok i) :
    ∃ d a, i = mk d a ∧ c = ⟨c.op, BitVec.ofNat 4 d, BitVec.ofNat 4 a, 0⟩ := by
  obtain ⟨op, rd, rs1, rs2⟩ := c
  simp only [decodePP, bind_eq_ok_iff, pointIndex_eq_ok_iff, mustBeZero_eq_ok_iff] at h
  obtain ⟨d, rfl, a, rfl, -, rfl, ⟨⟩⟩ := h
  exact ⟨d, a, rfl, rfl⟩

theorem eq_of_decodeP {mk : PIdx → Instr} (h : decodeP mk c = .ok i) :
    ∃ a, i = mk a ∧ c = ⟨c.op, 0, BitVec.ofNat 4 a, 0⟩ := by
  obtain ⟨op, rd, rs1, rs2⟩ := c
  simp only [decodeP, bind_eq_ok_iff, pointIndex_eq_ok_iff, mustBeZero_eq_ok_iff] at h
  obtain ⟨-, rfl, a, rfl, -, rfl, ⟨⟩⟩ := h
  exact ⟨a, rfl, rfl⟩

theorem eq_of_decodeNone {j : Instr} (h : decodeNone j c = .ok i) : i = j ∧ c = ⟨c.op, 0, 0, 0⟩ := by
  obtain ⟨op, rd, rs1, rs2⟩ := c
  simp only [decodeNone, bind_eq_ok_iff, mustBeZero_eq_ok_iff] at h
  obtain ⟨-, rfl, -, rfl, -, rfl, ⟨⟩⟩ := h
  exact ⟨rfl, rfl⟩

end OperandForms

/-- An operation code is legal (rule R63) or illegal (rule R64). -/
theorem op_cases (op : Nibble) : (op = 1 ∨ op = 2 ∨ op = 3 ∨ op = 4 ∨ op = 5 ∨ op = 6 ∨ op = 7 ∨ op = 8 ∨ op = 9) ∨
    (op = 0 ∨ op = 10 ∨ op = 11 ∨ op = 12 ∨ op = 13 ∨ op = 14 ∨ op = 15) := by
  revert op; decide

theorem fields_of_decodeFields {c : Fields} {i : Instr} (h : decodeFields c = .ok i) : i.fields = c := by
  obtain ⟨op, rd, rs1, rs2⟩ := c
  obtain (rfl | rfl | rfl | rfl | rfl | rfl | rfl | rfl | rfl) | hop := op_cases op
  iterate 3
    · obtain ⟨d, a, b, rfl, hc⟩ := eq_of_decodeFFF h
      exact hc.symm
  · obtain ⟨d, a, b, rfl, hc⟩ := eq_of_decodePPP h
    exact hc.symm
  iterate 3
    · obtain ⟨d, a, rfl, hc⟩ := eq_of_decodePP h
      exact hc.symm
  · obtain ⟨a, rfl, hc⟩ := eq_of_decodeP h
    exact hc.symm
  · obtain ⟨rfl, hc⟩ := eq_of_decodeNone h
    exact hc.symm
  · obtain rfl | rfl | rfl | rfl | rfl | rfl | rfl := hop <;> cases h

theorem encode_of_decode {w : CmdWord} {i : Instr} (h : decode w = .ok i) : encode i = w := by
  rw [encode, fields_of_decodeFields h, toWord_wordFields]

/-- Settles O2: the word's fields are the command's, and each operand form reads its own indices back. -/
theorem encodeThenDecodeIsIdentity : Obligations.EncodeThenDecodeIsIdentity := decode_encode

/-- Settles O3: the fields that an operand form reads are those of the command it gives, and a word is the word of its
fields. -/
theorem decodeThenEncodeIsIdentity : Obligations.DecodeThenEncodeIsIdentity := fun _ _ => encode_of_decode

/-- Settles O1: each legal word is the word of its command, and each illegal one fails the check that rule R64 names. -/
theorem decodeReadsSampleWords : Obligations.DecodeReadsSampleWords :=
  ⟨decode_encode (.montmul 2 0 1), decode_encode (.montmul 7 7 7), decode_encode (.modadd 2 0 1),
    decode_encode (.modsub 7 7 0), decode_encode (.padd 1 2 3), decode_encode (.pdbl 1 0), decode_encode (.smulda 3 0),
    decode_encode (.smulml 3 0), decode_encode (.pchk 2), decode_encode .clrerr, rfl, rfl, rfl, rfl, rfl, rfl⟩

/-! ### The legal words are those with well-formed fields (rule R62) -/

/-- The family SelectsRow for every command. -/
theorem selectsRow (i : Instr) : Laws.SelectsRow.Statement i := by
  cases i with
  | montmul fd fs1 fs2 => exact Laws.SelectsRow.montmul fd fs1 fs2
  | modadd fd fs1 fs2 => exact Laws.SelectsRow.modadd fd fs1 fs2
  | modsub fd fs1 fs2 => exact Laws.SelectsRow.modsub fd fs1 fs2
  | padd pd ps1 ps2 => exact Laws.SelectsRow.padd pd ps1 ps2
  | pdbl pd ps1 => exact Laws.SelectsRow.pdbl pd ps1
  | smulda pd ps1 => exact Laws.SelectsRow.smulda pd ps1
  | smulml pd ps1 => exact Laws.SelectsRow.smulml pd ps1
  | pchk ps1 => exact Laws.SelectsRow.pchk ps1
  | clrerr => exact Laws.SelectsRow.clrerr

theorem admits_fieldReg_iff {v : Nibble} : FieldUse.fieldReg.admits v = true ↔ ∃ i : FIdx, v = BitVec.ofNat 4 i := by
  revert v; decide

theorem admits_pointReg_iff {v : Nibble} : FieldUse.pointReg.admits v = true ↔ ∃ n : PIdx, v = BitVec.ofNat 4 n := by
  revert v; decide

theorem admits_unused_iff {v : Nibble} : FieldUse.unused.admits v = true ↔ v = 0 := by
  revert v; decide

theorem wellFormed_iff_exists_uses {c : Fields} : c.wellFormed = true ↔
    ∃ d a b, fieldUses c.op = some (d, a, b) ∧ d.admits c.rd = true ∧ a.admits c.rs1 = true ∧ b.admits c.rs2 = true := by
  unfold Fields.wellFormed
  split
  · next huses => simp [huses, and_assoc]
  · next huses => simp [huses]

theorem exists_instr_of_wellFormed {c : Fields} (h : c.wellFormed = true) : ∃ i : Instr, i.fields = c := by
  obtain ⟨op, rd, rs1, rs2⟩ := c
  rw [wellFormed_iff_exists_uses] at h
  obtain ⟨d, a, b, huses, hadmits⟩ := h
  obtain (rfl | rfl | rfl | rfl | rfl | rfl | rfl | rfl | rfl) | hop := op_cases op
  case inr => obtain rfl | rfl | rfl | rfl | rfl | rfl | rfl := hop <;> cases huses
  all_goals
    cases huses
    simp only [admits_fieldReg_iff, admits_pointReg_iff, admits_unused_iff] at hadmits
  · obtain ⟨⟨d, rfl⟩, ⟨a, rfl⟩, ⟨b, rfl⟩⟩ := hadmits
    exact ⟨.montmul d a b, rfl⟩
  · obtain ⟨⟨d, rfl⟩, ⟨a, rfl⟩, ⟨b, rfl⟩⟩ := hadmits
    exact ⟨.modadd d a b, rfl⟩
  · obtain ⟨⟨d, rfl⟩, ⟨a, rfl⟩, ⟨b, rfl⟩⟩ := hadmits
    exact ⟨.modsub d a b, rfl⟩
  · obtain ⟨⟨d, rfl⟩, ⟨a, rfl⟩, ⟨b, rfl⟩⟩ := hadmits
    exact ⟨.padd d a b, rfl⟩
  · obtain ⟨⟨d, rfl⟩, ⟨a, rfl⟩, rfl⟩ := hadmits
    exact ⟨.pdbl d a, rfl⟩
  · obtain ⟨⟨d, rfl⟩, ⟨a, rfl⟩, rfl⟩ := hadmits
    exact ⟨.smulda d a, rfl⟩
  · obtain ⟨⟨d, rfl⟩, ⟨a, rfl⟩, rfl⟩ := hadmits
    exact ⟨.smulml d a, rfl⟩
  · obtain ⟨rfl, ⟨a, rfl⟩, rfl⟩ := hadmits
    exact ⟨.pchk a, rfl⟩
  · obtain ⟨rfl, rfl, rfl⟩ := hadmits
    exact ⟨.clrerr, rfl⟩

theorem exists_decode_eq_ok_iff {w : CmdWord} : (∃ i, decode w = .ok i) ↔ (wordFields w).wellFormed = true := by
  constructor
  · rintro ⟨i, h⟩
    rw [← encode_of_decode h, wordFields_encode]
    exact (selectsRow i).2
  · intro h
    obtain ⟨i, hi⟩ := exists_instr_of_wellFormed h
    exact ⟨i, by rw [decode, ← hi, decodeFields_fields]⟩

/-! ### The opcode table (rule R63) -/

/-- The bits of a field that a row of the table compares, all of them 0 in a legal word. -/
def FieldUse.mask : FieldUse → Nibble
  | .fieldReg => 0x8
  | .pointReg => 0xC
  | .unused => 0xF

theorem admits_iff_and_mask {u : FieldUse} {v : Nibble} : u.admits v = true ↔ v &&& u.mask = 0 := by
  cases u <;> revert v <;> decide

/-- The fields of the mask of a row whose fields are used so. -/
def maskFields : FieldUse × FieldUse × FieldUse → Fields
  | (d, a, b) => ⟨0xF, d.mask, a.mask, b.mask⟩

/-- Row `r` is that of the operation code `r + 1`, and compares what the code asks of the fields. -/
theorem rowFields (r : Fin 9) : wordFields (opcodeTable[r]).pattern = ⟨BitVec.ofNat 4 (r + 1), 0, 0, 0⟩ ∧
    (fieldUses (BitVec.ofNat 4 (r + 1))).map maskFields = some (wordFields (opcodeTable[r]).mask) := by
  revert r; decide

theorem wordFields_and (w m : CmdWord) : wordFields (w &&& m) =
    ⟨(wordFields w).op &&& (wordFields m).op, (wordFields w).rd &&& (wordFields m).rd,
      (wordFields w).rs1 &&& (wordFields m).rs1, (wordFields w).rs2 &&& (wordFields m).rs2⟩ := by
  simp only [wordFields, BitVec.extractLsb'_and]

theorem wellFormed_of_selects {r : Fin 9} {w : CmdWord} (h : (opcodeTable[r]).selects w = true) :
    (wordFields w).wellFormed = true := by
  obtain ⟨hpattern, hmask⟩ := rowFields r
  obtain ⟨⟨d, a, b⟩, huses, hmask⟩ := Option.map_eq_some_iff.mp hmask
  have hfields := congrArg wordFields (beq_iff_eq.mp h)
  rw [wordFields_and, hpattern, ← hmask, maskFields] at hfields
  obtain ⟨handOp, hd, ha, hb⟩ := Fields.mk.inj hfields
  have hop : (wordFields w).op = BitVec.ofNat 4 (r + 1) := BitVec.and_allOnes.symm.trans handOp
  rw [← admits_iff_and_mask] at hd ha hb
  rw [wellFormed_iff_exists_uses]
  exact ⟨d, a, b, hop ▸ huses, hd, ha, hb⟩

/-- Settles O4: a word that selects a row has well-formed fields, and a command's word selects its own row alone. -/
theorem legalWordsSelectTheirRowAlone : Obligations.LegalWordsSelectTheirRowAlone := by
  have hrow (w : CmdWord) (i : Instr) (h : decode w = .ok i) (r : Fin 9) :
      (opcodeTable[r]).selects w = true ↔ r = i.row := by
    rw [← encode_of_decode h, (selectsRow i).1 r, decide_eq_true_iff]
  refine ⟨fun w => ⟨?_, ?_⟩, hrow⟩
  · rintro ⟨i, h⟩
    exact ⟨i.row, (hrow w i h i.row).mpr rfl⟩
  · rintro ⟨r, h⟩
    rw [exists_decode_eq_ok_iff]
    exact wellFormed_of_selects h

end Sys2Proof

namespace Sys2Proof.Machine

/-! ### The illegal words (rule R64) -/

theorem fieldUses_eq_none_iff {op : Nibble} : fieldUses op = none ↔ op.toNat = 0 ∨ 10 ≤ op.toNat := by
  revert op; decide

theorem wellFormed_iff_not_illegalFields {c : Fields} :
    c.wellFormed = true ↔ ¬ IllegalFields c.op.toNat c.rd.toNat c.rs1.toNat c.rs2.toNat := by
  unfold Fields.wellFormed IllegalFields
  cases huses : fieldUses c.op with
  | none =>
    rw [fieldUses_eq_none_iff] at huses
    simp only [Bool.false_eq_true, false_iff, not_not]
    omega
  | some uses =>
    unfold fieldUses at huses
    split at huses <;> cases huses
    all_goals
      simp only [FieldUse.admits, Bool.and_eq_true, decide_eq_true_eq]
      omega

theorem toNat_wordFields (w : CmdWord) : (wordFields w).op.toNat = w.toNat / 4096 ∧
    (wordFields w).rd.toNat = w.toNat / 256 % 16 ∧ (wordFields w).rs1.toNat = w.toNat / 16 % 16 ∧
    (wordFields w).rs2.toNat = w.toNat % 16 := by
  have hw : w.toNat < 65536 := w.isLt
  simp only [wordFields, BitVec.extractLsb'_toNat, Nat.shiftRight_eq_div_pow, true_and]
  omega

theorem illegalWord_iff (w : CmdWord) : IllegalWord w ↔ ¬ (wordFields w).wellFormed = true := by
  obtain ⟨hop, hrd, hrs1, hrs2⟩ := toNat_wordFields w
  rw [wellFormed_iff_not_illegalFields, not_not, hop, hrd, hrs1, hrs2]

/-- Settles O5: the words that do not decode are those whose fields are not well formed. -/
theorem illegalWordsAreThoseOfTheRule : Obligations.IllegalWordsAreThoseOfTheRule := by
  intro w
  rw [illegalWord_iff, ← exists_decode_eq_ok_iff]
  cases decode w <;> simp

/-- Settles O8: the word does not decode, so it completes with the error, which touches STATUS alone. -/
theorem illegalWordCompletesWithCode4 : Obligations.IllegalWordCompletesWithCode4 := by
  intro s v rest hp hillegal
  obtain ⟨e, hdecode⟩ := (illegalWordsAreThoseOfTheRule _).mpr hillegal
  have hstep : step s = .next ((s.advance rest).completeError .illegalCommand) := by
    rw [step_wr_cmd hp, runCommand, hdecode]
  have hstatus := completeError_statusError (s := s.advance rest) .illegalCommand
  obtain ⟨hregs, hhost⟩ := completeError_frame (s := s.advance rest) none none .illegalCommand
  exact ⟨_, hstep, { hstatus with }, { hregs with }, hhost.pending, hhost.pc, hhost.responses, rfl⟩

/-! ### The pseudo-instructions (rule R68) -/

theorem run_succ_of_step {s t : State} (h : step s = .next t) (k : Nat) : core.run (k + 1) s = core.run k t := by
  have hcore : core.step s = .next t := h
  simp only [Host.Core.run, hcore]

theorem run_three_of_steps {s t u v : State} (hs : step s = .next t) (ht : step t = .next u) (hu : step u = .next v) :
    core.run 3 s = .next v := by
  rw [run_succ_of_step hs, run_succ_of_step ht, run_succ_of_step hu]
  rfl

theorem run_ldpt {s : State} {n : PIdx} {x y : Nat} {rest : List HostEvent}
    (hp : s.pending = (AsmLine.ldpt n x y).expand ++ rest) : core.run 3 s =
      .next { s with pt := s.pt.set n ⟨false, x % 2 ^ s.geom.W, y % 2 ^ s.geom.W⟩, pending := rest, pc := s.pc + 3 } := by
  rw [run_three_of_steps (step_wr_encodeSel (r := .ptX n) rfl hp) (step_wr_encodeSel (r := .ptY n) rfl rfl)
    (step_wr_encodeSel (r := .ptInf n) rfl rfl)]
  simp [State.writeSel, State.setPt, State.advance]

theorem run_ldinf {s : State} {n : PIdx} {rest : List HostEvent}
    (hp : s.pending = (AsmLine.ldinf n).expand ++ rest) : core.run 1 s =
      .next { s with pt := s.pt.set n ⟨true, (s.pt[n]).x, (s.pt[n]).y⟩, pending := rest, pc := s.pc + 1 } :=
  run_succ_of_step (step_wr_encodeSel (r := .ptInf n) rfl hp) 0

theorem run_ldcurve {s : State} {a b p : Nat} {rest : List HostEvent}
    (hp : s.pending = (AsmLine.ldcurve a b p).expand ++ rest) : core.run 3 s =
      .next { s with ca := a % 2 ^ s.geom.W, cb := b % 2 ^ s.geom.W, cp := p % 2 ^ s.geom.W, pending := rest,
                     pc := s.pc + 3 } := by
  rw [run_three_of_steps (step_wr_encodeSel (r := .ca) rfl hp) (step_wr_encodeSel (r := .cb) rfl rfl)
    (step_wr_encodeSel (r := .cp) rfl rfl)]
  rfl

theorem run_rdpt {s : State} {n : PIdx} {rest : List HostEvent}
    (hp : s.pending = (AsmLine.rdpt n).expand ++ rest) : core.run 3 s =
      .next { s with pending := rest, pc := s.pc + 3,
                     responses := (s.pt[n]).y :: (s.pt[n]).x :: (s.pt[n]).inf.toNat :: s.responses } := by
  rw [run_three_of_steps (step_rd_encodeSel (r := .ptInf n) hp) (step_rd_encodeSel (r := .ptX n) rfl)
    (step_rd_encodeSel (r := .ptY n) rfl)]
  simp [State.readSel, State.respond, State.advance]

/-- Settles O16: each transaction is one step on the registers that its selectors name. -/
theorem pseudoInstructionsDoTheirPurpose : Obligations.PseudoInstructionsDoTheirPurpose :=
  fun _ _ _ _ _ _ _ _ => ⟨fun hp => ⟨_, run_ldpt hp, rfl⟩, fun hp => ⟨_, run_ldinf hp, rfl⟩,
    fun hp => ⟨_, run_ldcurve hp, rfl⟩, fun hp => ⟨_, run_rdpt hp, rfl⟩⟩

end Sys2Proof.Machine
end

section
/-! PROOFS. The statements of 40_montgomery_mult.md: the Montgomery product by its defining property (rules R80, R81), and from
that property the bit-serial algorithm (rule R82) and the identities of the Montgomery form (rule R83). -/

namespace Sys2Proof.Machine

variable {p : Nat}

/-! ### The Montgomery product (rule R80) -/

/-- The defining congruence of the Montgomery product, in the integers modulo p. -/
theorem cast_montmul_mul (hp : p % 2 = 1) (W u v : Nat) : (montmul W u v p : ZMod p) * 2 ^ W = u * v := by
  have hinv : (montRinv W p : ZMod p) * 2 ^ W = 1 := by
    simpa using mod_eq_iff_cast.mp (montRinv_mul (W := W) hp)
  calc (montmul W u v p : ZMod p) * 2 ^ W
    _ = u * v * (montRinv W p * 2 ^ W) := by
      rw [montmul, ZMod.natCast_mod]
      push_cast
      ring
    _ = u * v := by rw [hinv, mul_one]

/-- The Montgomery product is the one reduced number with that property: 2^W is a unit modulo an odd p. -/
theorem eq_montmul_iff {r : Nat} (hp : p % 2 = 1) (hr : r < p) (W u v : Nat) :
    r = montmul W u v p ↔ (r : ZMod p) * 2 ^ W = u * v := by
  have hunit : IsUnit ((2 : ZMod p) ^ W) :=
    .pow W ((ZMod.isUnit_iff_coprime 2 p).mpr (Nat.coprime_two_left.mpr (Nat.odd_iff.mpr hp)))
  rw [← cast_montmul_mul hp W u v, hunit.mul_left_inj]
  exact (cast_inj_of_lt hr (montmul_lt (Nat.zero_lt_of_lt hr) W u v)).symm

/-! ### MONTMUL (rule R81) -/

/-- Settles O27: MONTMUL completes with the Montgomery product, which its congruence determines. -/
theorem montmulWritesTheMontgomeryProduct : Obligations.MontmulWritesTheMontgomeryProduct := by
  intro s fd fs1 fs2 hpos hodd hu hv
  refine ⟨_, exec_montmul_of_precondition ⟨hpos, hodd, hu, hv⟩, ?_, ?_, fun r hr hcong => ?_,
    completeField_status fd _, completeField_frame fd _, rfl⟩ <;> rw [completeField_readF, if_pos rfl]
  · exact montmul_lt hpos ..
  · exact mod_eq_iff_cast.mpr (by simpa using cast_montmul_mul hodd ..)
  · exact (eq_montmul_iff hodd hr ..).mpr (by simpa using mod_eq_iff_cast.mp hcong)

/-! ### The bit-serial algorithm (rule R82) -/

/-- One iteration halves exactly: p is added where that makes the sum even. -/
theorem two_mul_montSerialStep (hp : p % 2 = 1) (v S : Nat) (b : Bool) :
    ∃ c ≤ 1, 2 * montSerialStep p v S b = S + b.toNat * v + c * p := by
  have hadd : (if b then S + v else S) = S + b.toNat * v := by cases b <;> simp
  simp only [montSerialStep, hadd]
  split
  · exact ⟨1, le_rfl, by omega⟩
  · exact ⟨0, Nat.zero_le 1, by omega⟩

theorem montSerialSum_lt {v : Nat} (hp : p % 2 = 1) (hv : v < p) (u : Nat) : ∀ n, montSerialSum p u v n < 2 * p
  | 0 => by
    rw [montSerialSum]
    omega
  | n + 1 => by
    have ih := montSerialSum_lt hp hv u n
    obtain ⟨c, hc, hstep⟩ := two_mul_montSerialStep hp v (montSerialSum p u v n) (bit u n)
    have hbv : (bit u n).toNat * v ≤ 1 * v := Nat.mul_le_mul_right v (Bool.toNat_le _)
    have hcp : c * p ≤ 1 * p := Nat.mul_le_mul_right p hc
    rw [montSerialSum]
    omega

/-- Bit n goes on top of the n bits below it. -/
theorem mod_two_pow_succ_eq_bit (u n : Nat) : u % 2 ^ (n + 1) = u % 2 ^ n + 2 ^ n * (bit u n).toNat := by
  have hbit : u / 2 ^ n % 2 = (bit u n).toNat := by
    rcases Nat.mod_two_eq_zero_or_one (u / 2 ^ n) with h | h <;> simp [bit, h]
  rw [Nat.mod_pow_succ, hbit]

theorem cast_montSerialSum_mul (hp : p % 2 = 1) (u v : Nat) :
    ∀ n, (montSerialSum p u v n : ZMod p) * 2 ^ n = (u % 2 ^ n : Nat) * v
  | 0 => by simp [montSerialSum, Nat.mod_one]
  | n + 1 => by
    have ih := cast_montSerialSum_mul hp u v n
    obtain ⟨c, -, hstep⟩ := two_mul_montSerialStep hp v (montSerialSum p u v n) (bit u n)
    have hcast : 2 * (montSerialSum p u v (n + 1) : ZMod p) = montSerialSum p u v n + (bit u n).toNat * v := by
      simpa [montSerialSum] using congrArg (Nat.cast (R := ZMod p)) hstep
    calc (montSerialSum p u v (n + 1) : ZMod p) * 2 ^ (n + 1)
      _ = 2 * montSerialSum p u v (n + 1) * 2 ^ n := by ring
      _ = montSerialSum p u v n * 2 ^ n + 2 ^ n * (bit u n).toNat * v := by
        rw [hcast]
        ring
      _ = (u % 2 ^ (n + 1) : Nat) * v := by
        rw [ih, mod_two_pow_succ_eq_bit]
        push_cast
        ring

/-- The last correction reduces the sum, which is below 2p, and keeps its residue. -/
theorem montSerial_eq_mod {v : Nat} (hp : p % 2 = 1) (hv : v < p) (W u : Nat) :
    montSerial W u v p = montSerialSum p u v W % p := by
  have hlt := montSerialSum_lt hp hv u W
  simp only [montSerial]
  split
  · next hge => rw [Nat.mod_eq_sub_mod hge, Nat.mod_eq_of_lt (by omega)]
  · next hge => rw [Nat.mod_eq_of_lt (Nat.lt_of_not_le hge)]

/-- Settles O31: the loop invariant at n = W, where all of u is consumed, is the property that defines the product. -/
theorem bitSerialAlgorithmIsMontmul : Obligations.BitSerialAlgorithmIsMontmul := by
  intro W u v p hp hu hv hW
  refine ⟨?_, fun n _ => ⟨montSerialSum_lt hp hv u n, mod_eq_iff_cast.mpr ?_⟩⟩
  · rw [montSerial_eq_mod hp hv, eq_montmul_iff hp (Nat.mod_lt _ (Nat.zero_lt_of_lt hv)), ZMod.natCast_mod,
      cast_montSerialSum_mul hp, Nat.mod_eq_of_lt (hu.trans hW)]
  · simpa using cast_montSerialSum_mul hp u v n

/-! ### The identities of the Montgomery form (rule R83) -/

/-- Settles O32: each side of (a), (c) and (d) is the product that its congruence determines, and (b) is that congruence. -/
theorem montgomeryFormIdentities : Obligations.MontgomeryFormIdentities := by
  intro W u v t p hp hu _ _ R2
  have hR2 : (R2 : ZMod p) = 2 ^ W * 2 ^ W := by
    simp only [R2, ZMod.natCast_mod]
    push_cast
    ring
  have hpos : 0 < p := Nat.zero_lt_of_lt hu
  refine ⟨Eq.symm ?_, ?_, ?_, Eq.symm ?_⟩
  · rw [eq_montmul_iff hp (Nat.mod_lt _ hpos), ZMod.natCast_mod, hR2]
    push_cast
    ring
  · exact mod_eq_iff_cast.mpr (by simpa using cast_montmul_mul hp W t 1)
  · rw [eq_montmul_iff hp (mulm_lt hpos u v), mulm, ZMod.natCast_mod, hR2, ← mul_assoc, cast_montmul_mul hp,
      Nat.cast_mul]
  · rw [eq_montmul_iff hp (Nat.mod_lt _ hpos)]
    simp only [ZMod.natCast_mod]
    push_cast
    ring

end Sys2Proof.Machine
end

section
/-! PROOFS. The statements of 41_modular_adder_subtracter.md: MODADD and MODSUB (rules R91 to R93), and that what a command
writes fits its register (rule R94), from which every step keeps the invariant of the state. -/

namespace Sys2Proof.Machine

/-! ### One conditional correction (rule R91) -/

section Correction
variable {u v p : Nat}

theorem addCorrect_eq_addm (hu : u < p) (hv : v < p) : addCorrect u v p = addm u v p := by
  rw [addm, Nat.add_mod_eq_ite, Nat.mod_eq_of_lt hu, Nat.mod_eq_of_lt hv]
  rfl

/-- The difference of two reduced numbers lies between -p and p, so at most one p is missing. -/
theorem subCorrect_eq_subm (hu : u < p) (hv : v < p) : subCorrect u v p = subm u v p := by
  simp only [subCorrect, subm, modp]
  split
  · next hneg => rw [← Int.add_emod_right, Int.emod_eq_of_lt (by omega) (by omega)]
  · next hnonneg => rw [Int.emod_eq_of_lt (by omega) (by omega)]

end Correction

/-- Settles O33: on reduced operands the sum is below 2p and the difference above -p. -/
theorem oneCorrectionSuffices : Obligations.OneCorrectionSuffices :=
  fun _ _ _ hu hv => ⟨addCorrect_eq_addm hu hv, subCorrect_eq_subm hu hv⟩

/-! ### MODADD and MODSUB (rules R92, R93) -/

/-- Settles O28: MODADD completes with the reduced sum. -/
theorem modaddWritesTheSum : Obligations.ModaddWritesTheSum := by
  intro s fd fs1 fs2 hpos hu hv
  refine ⟨_, exec_modadd_of_precondition ⟨hpos, hu, hv⟩, ?_, completeField_status fd _, completeField_frame fd _, rfl⟩
  rw [completeField_readF, if_pos rfl, addm]

/-- Settles O29: MODSUB completes with the reduced difference, which is the remainder of the integers. -/
theorem modsubWritesTheDifference : Obligations.ModsubWritesTheDifference := by
  intro s fd fs1 fs2 hpos hu hv
  refine ⟨_, exec_modsub_of_precondition ⟨hpos, hu, hv⟩, ?_, completeField_status fd _, completeField_frame fd _, rfl⟩
  rw [completeField_readF, if_pos rfl, subm, modp_cast hpos]

/-! ### The scalar multiplications give reduced points

Both working points stay reduced through the loop. With K = 0 there is no iteration, and the result is Infinity whatever
the point is (log 8). -/

section Reduced
variable {a b p k : Nat} {P R : Point} {w w' : Point × Point}

/-- A property that every iteration keeps holds after the loop, if it ends without an error. -/
theorem foldlM_ok_induction {α β ε : Type} {f : β → α → Except ε β} (inv : β → Prop)
    (hf : ∀ {w v w'}, inv w → f w v = .ok w' → inv w') :
    ∀ {l : List α} {w w' : β}, inv w → l.foldlM f w = .ok w' → inv w'
  | [], _, _, hw, h => Except.ok.inj h ▸ hw
  | v :: l, _, _, hw, h => by
    obtain ⟨w₁, hw₁, hl⟩ := bind_eq_ok_iff.mp h
    exact foldlM_ok_induction inv hf (hf hw hw₁) hl

/-- Both working points are reduced. -/
def ReducedPair (p : Nat) (w : Point × Point) : Prop := w.1.reduced p = true ∧ w.2.reduced p = true

theorem dblAddStep_reducedPair (hp : 0 < p) {set : Bool} (hw : ReducedPair p w) (h : dblAddStep a b p w set = .ok w') :
    ReducedPair p w' := by
  obtain ⟨hQ, hP⟩ := hw
  have hdouble {Q : Point} (hQ : Q.reduced p = true) (h : (do let P' ← double a b p w.2; return (Q, P')) = .ok w') :
      ReducedPair p w' := by
    obtain ⟨P', hP', ⟨⟩⟩ := bind_eq_ok_iff.mp h
    exact ⟨hQ, double_reduced hp hP'⟩
  cases set with
  | false => exact hdouble hQ h
  | true =>
    obtain ⟨Q', hQ', h⟩ := bind_eq_ok_iff.mp h
    exact hdouble (add_reduced hp hQ hP hQ') h

theorem ladderStep_reducedPair (hp : 0 < p) {set : Bool} (hw : ReducedPair p w) (h : ladderStep a b p w set = .ok w') :
    ReducedPair p w' := by
  obtain ⟨hR0, hR1⟩ := hw
  obtain ⟨S, hS, h⟩ := bind_eq_ok_iff.mp h
  obtain ⟨D, hD, ⟨⟩⟩ := bind_eq_ok_iff.mp h
  cases set with
  | false => exact ⟨double_reduced hp hD, add_reduced hp hR0 hR1 hS⟩
  | true => exact ⟨add_reduced hp hR0 hR1 hS, double_reduced hp hD⟩

/-- The loop of either scalar multiplication, from (Infinity, P), gives a reduced point, whether or not P is examined. -/
theorem foldlM_fst_reduced {f : Point × Point → Bool → Except ErrorKind (Point × Point)} {bits : List Bool}
    (hf : ∀ {w set w'}, ReducedPair p w → f w set = .ok w' → ReducedPair p w') (hP : P.reduced p = true ∨ bits = [])
    (h : (do let w ← bits.foldlM f (.infinity, P); return w.1) = .ok R) : R.reduced p = true := by
  obtain ⟨w, hw, ⟨⟩⟩ := bind_eq_ok_iff.mp h
  rcases hP with hP | rfl
  · exact (foldlM_ok_induction (ReducedPair p) hf ⟨rfl, hP⟩ hw).1
  · cases hw
    rfl

theorem scalarMulDoubleAndAdd_reduced (hp : 0 < p) (hP : P.reduced p = true ∨ k = 0)
    (h : scalarMulDoubleAndAdd a b p P k = .ok R) : R.reduced p = true :=
  foldlM_fst_reduced (dblAddStep_reducedPair hp) (hP.imp_right (· ▸ rfl)) h

theorem scalarMulLadder_reduced (hp : 0 < p) (hP : P.reduced p = true ∨ k = 0)
    (h : scalarMulLadder a b p P k = .ok R) : R.reduced p = true :=
  foldlM_fst_reduced (ladderStep_reducedPair hp) (hP.imp_right (· ▸ rfl)) h

end Reduced

/-! ### Every step keeps the invariant (rule R94) -/

theorem oddPrime_pos {p : Nat} (h : oddPrime p = true) : 0 < p := ((oddPrime_iff p).mp h).1.pos

/-- A reduced point fits every width that the modulus fits. -/
theorem Point.Fits.of_reduced {p W : Nat} (hp : p < 2 ^ W) {R : Point} (hR : R.reduced p = true) : R.Fits W := by
  cases R with
  | infinity => trivial
  | affine x y =>
    obtain ⟨hx, hy⟩ := reduced_affine.mp hR
    exact ⟨hx.trans hp, hy.trans hp⟩

section Invariant
variable {s t : State}

/-- A field command whose result is reduced under its precondition keeps the invariant: CP fits W bits. -/
theorem fieldCommand_wf (h : s.Wf) (fd : FIdx) {param : Prop} [Decidable param] {v : Nat} (hv : param → v < s.cp) :
    (if param then s.completeField fd v else s.completeFieldUnspecified fd).Wf := by
  split
  · next hparam => exact completeField_wf h fd ((hv hparam).trans h.cp_lt)
  · exact completeFieldUnspecified_wf h fd

/-- A point command whose result is reduced under its precondition keeps the invariant: CP fits W bits. -/
theorem pointCommand_wf (h : s.Wf) (pd : PIdx) {param : Prop} [Decidable param] {r : Except ErrorKind Point}
    (hr : param → ∀ R, r = .ok R → R.reduced s.cp = true) :
    (if param then s.completePoint pd r else s.completePointUnspecified pd).Wf := by
  split
  · next hparam => exact completePoint_wf h pd fun R hR => .of_reduced h.cp_lt (hr hparam R hR)
  · exact completePointUnspecified_wf h pd

theorem exec_wf {i : Instr} (h : s.Wf) (he : exec i s = .next t) : t.Wf := by
  cases i with
  | montmul fd fs1 fs2 =>
    cases he
    exact fieldCommand_wf h fd fun ⟨⟨hp, _, _⟩, _⟩ => montmul_lt hp ..
  | modadd fd fs1 fs2 | modsub fd fs1 fs2 =>
    cases he
    exact fieldCommand_wf h fd fun ⟨hp, _, _⟩ => modaddsub_lt hp ..
  | padd pd ps1 ps2 =>
    cases he
    exact pointCommand_wf h pd fun ⟨hp, hP, hQ⟩ _ => add_reduced (oddPrime_pos hp) hP hQ
  | pdbl pd ps1 =>
    cases he
    exact pointCommand_wf h pd fun ⟨hp, _⟩ _ => double_reduced (oddPrime_pos hp)
  | smulda pd ps1 =>
    cases he
    exact pointCommand_wf h pd fun ⟨hp, _, _, hP⟩ _ => scalarMulDoubleAndAdd_reduced (oddPrime_pos hp) hP
  | smulml pd ps1 =>
    cases he
    exact pointCommand_wf h pd fun ⟨hp, _, _, hP⟩ _ => scalarMulLadder_reduced (oddPrime_pos hp) hP
  | pchk ps1 =>
    cases he
    split
    · exact completeCheck_wf h _
    · exact completeCheck_wf (useFresh_wf h 1) _
  | clrerr =>
    cases he
    exact setStatus_wf h (statusWf_clear h.statusWf)

theorem runCommand_wf {w : CmdWord} (h : s.Wf) (hr : runCommand w s = .next t) : t.Wf := by
  unfold runCommand at hr
  split at hr
  · exact exec_wf h hr
  · cases hr
    exact completeError_wf h _

theorem performWr_wf {sel : Selector} {v : Nat} (h : s.Wf) (hw : performWr sel v s = .next t) : t.Wf := by
  unfold performWr at hw
  split at hw
  · exact runCommand_wf h hw
  · cases hw
    exact writeSel_wf h _ v

theorem performEvent_wf {e : HostEvent} (h : s.Wf) (he : performEvent e s = .next t) : t.Wf := by
  cases e with
  | wr sel v => exact performWr_wf h he
  | rd sel =>
    cases he
    exact respond_wf h _
  | reset =>
    cases he
    exact resetEvent_wf h.geom_valid

end Invariant

/-- Settles O58: a step is idle or performs one event, and each event keeps the invariant. -/
theorem everyStepKeepsTheInvariant : Obligations.EveryStepKeepsTheInvariant := by
  intro s t h hstep
  cases hp : s.pending with
  | nil =>
    have hidle : step s = .next s := by simp only [step, nextEvent, hp]
    exact Host.Outcome.next.inj (hidle.symm.trans hstep) ▸ h
  | cons e rest =>
    rw [step_of_pending hp] at hstep
    exact performEvent_wf (advance_wf h rest) hstep

end Sys2Proof.Machine
end

section
/-! PROOFS. The statement of 42_on_curve_check.md: PCHK reports in ONC whether its point solves the curve equation (rules
R101, R102). -/

namespace Sys2Proof.Machine

/-! ### The check, one equation per kind of point -/

section Check
variable (a b p x y : Nat)

theorem isOnCurve_infinity : isOnCurve a b p .infinity = true := rfl

theorem isOnCurve_affine_iff_mod_eq :
    isOnCurve a b p (.affine x y) = true ↔ y * y % p = (x * x * x + a * x + b) % p := beq_iff_eq

end Check

theorem onc_completeCheck (s : State) (r : Bool) : statusOnc (s.completeCheck r).status = r := by simp

/-- Settles O34: under its precondition PCHK completes with the check, which Infinity always passes and an affine point
passes exactly by the curve equation. -/
theorem pchkReportsTheCurveEquation : Obligations.PchkReportsTheCurveEquation := by
  intro s ps1 hc hP
  refine ⟨_, exec_pchk_of_precondition ⟨hc, hP⟩, ?onc, by simp, by simp, by simp, completeCheck_frame _, rfl⟩
  rw [onc_completeCheck]
  cases s.readPt ps1 with
  | infinity => exact iff_true_intro (isOnCurve_infinity _ _ _)
  | affine x y => exact isOnCurve_affine_iff_mod_eq _ _ _ x y

end Sys2Proof.Machine
end

section
/-! PROOFS. The statements of 43_ecc_point_adder.md: what PADD writes and where it raises (rules R111, R112), and which errors
PADD and PDBL never raise (rules R112, R122). -/

namespace Sys2Proof.Machine

/-! ### Which errors the functions raise -/

section Errors
variable {a b p : Nat}

theorem invm_eq_error_iff {v : Nat} {e : ErrorKind} : invm v p = .error e ↔ v = 0 ∧ e = .undefinedInverse := by
  rcases eq_or_ne v 0 with rfl | h0
  · simp [eq_comm]
  · simp [invm_of_ne_zero h0, h0]

theorem eq_of_add_eq_error {P Q : Point} {e : ErrorKind} (h : add p P Q = .error e) :
    e = .equalPoints ∨ e = .undefinedInverse := by
  unfold add at h
  split at h
  · cases h
  split at h
  · cases h
  split at h
  · cases h
    exact .inl rfl
  split at h
  · cases h
  split at h
  · next hinv =>
    cases h
    exact .inr (invm_eq_error_iff.mp hinv).2
  · cases h

theorem eq_of_double_eq_error {P : Point} {e : ErrorKind} (h : double a b p P = .error e) :
    e = .notOnCurve ∨ e = .undefinedInverse := by
  unfold double at h
  split at h
  · cases h
  split at h
  · split at h
    · next hinv =>
      cases h
      exact .inr (invm_eq_error_iff.mp hinv).2
    · cases h
  · cases h
    exact .inl rfl

end Errors

/-! ### What a point command leaves, from the outcome of its function -/

section PointOutcome
variable {s : State} {i : Instr} {pd : PIdx} {r : Except ErrorKind Point}

/-- A point command whose function raises no other error than two given ones completes with 0 or with the code of one. -/
theorem err_completePoint {e₁ e₂ : ErrorKind} (pd : PIdx) (hr : ∀ e, r = .error e → e = e₁ ∨ e = e₂) :
    statusErr (s.completePoint pd r).status = 0 ∨ statusErr (s.completePoint pd r).status = e₁.code ∨
      statusErr (s.completePoint pd r).status = e₂.code := by
  cases r with
  | ok R => exact .inl (completePoint_ok_status pd R).err
  | error e =>
    have herr : statusErr (s.completePoint pd (.error e)).status = e.code := (completeError_statusError e).err
    exact .inr ((hr e rfl).imp (fun h => herr.trans (congrArg _ h)) (fun h => herr.trans (congrArg _ h)))

/-- The function answers: the destination holds its value (60_exceptions.md rule R182). -/
theorem exec_writes_of_ok {R : Point} (he : exec i s = .next (s.completePoint pd r)) (hr : r = .ok R) :
    ∃ t, exec i s = .next t ∧ t.readPt pd = R ∧ StatusOk s t ∧ Frame none (some pd) s t := by
  subst hr
  exact ⟨_, he, (completePoint_ok_readPt pd pd R).trans (if_pos rfl), completePoint_ok_status pd R, completePoint_frame pd _⟩

/-- The function raises: no register is written (60_exceptions.md rule R183). -/
theorem exec_raises_of_error {e : ErrorKind} (he : exec i s = .next (s.completePoint pd r)) (hr : r = .error e) :
    ∃ t, exec i s = .next t ∧ StatusError e.code s t ∧ Frame none none s t := by
  subst hr
  exact ⟨_, he, completeError_statusError e, completeError_frame none none e⟩

end PointOutcome

/-- Settles O22: `add` raises EqualPointsError or UndefinedInverseError, `double` NotOnCurveError or UndefinedInverseError. -/
theorem paddAndPdblRaiseOnlyTheirErrors : Obligations.PaddAndPdblRaiseOnlyTheirErrors := by
  refine fun s t pd ps1 ps2 => ⟨fun h ht => ?_, fun h ht => ?_⟩
  · cases (exec_padd_of_precondition h).symm.trans ht
    exact err_completePoint pd fun _ => eq_of_add_eq_error
  · cases (exec_pdbl_of_precondition h).symm.trans ht
    exact err_completePoint pd fun _ => eq_of_double_eq_error

/-! ### The adder, one equation per case of rule R111 -/

section Add
variable {p x yP yQ : Nat}

theorem add_infinity_left (Q : Point) : add p .infinity Q = .ok Q := rfl

theorem add_infinity_right (P : Point) : add p P .infinity = .ok P := by cases P <;> rfl

theorem add_same_affine (p x y : Nat) : add p (.affine x y) (.affine x y) = .error .equalPoints := if_pos ⟨rfl, rfl⟩

theorem add_of_opposite (hne : yP ≠ yQ) (hopp : (yP + yQ) % p = 0) :
    add p (.affine x yP) (.affine x yQ) = .ok .infinity := by
  simp [add, hne, hopp]

/-- The abscissas differ by 0, which has no inverse. -/
theorem add_of_not_opposite (hne : yP ≠ yQ) (hopp : (yP + yQ) % p ≠ 0) :
    add p (.affine x yP) (.affine x yQ) = .error .undefinedInverse := by
  have hzero : modp 0 p = 0 := by simp [modp]
  simp [add, hne, hopp, hzero]

theorem modp_modEq (hp : 0 < p) (z : Int) : (modp z p : Int) ≡ z [ZMOD p] := by
  rw [modp_cast hp]
  exact Int.mod_modEq z p

theorem chordPoint_modEq (hp : 0 < p) (lam x₁ y₁ x₂ : Nat) : ∃ xR yR : Nat,
    chordPoint p lam x₁ y₁ x₂ = .affine xR yR ∧ xR < p ∧ yR < p ∧
    (xR : Int) ≡ lam * lam - x₁ - x₂ [ZMOD p] ∧ (yR : Int) ≡ lam * (x₁ - xR) - y₁ [ZMOD p] :=
  ⟨_, _, rfl, modp_lt hp _, modp_lt hp _, modp_modEq hp _, modp_modEq hp _⟩

/-- `add` on points with different abscissas, with the slope as the integers modulo p have it. -/
theorem add_of_x_ne_modEq {xP xQ : Nat} (hp : p.Prime) (hx : xP ≠ xQ) (hP : xP < p) (hQ : xQ < p) :
    ∃ lam, add p (.affine xP yP) (.affine xQ yQ) = .ok (chordPoint p lam xP yP xQ) ∧ lam < p ∧
      (lam : Int) * (xQ - xP) ≡ yQ - yP [ZMOD p] := by
  have : Fact p.Prime := ⟨hp⟩
  obtain ⟨lam, hadd, hlt, hlam⟩ := add_of_x_ne (yP := yP) (yQ := yQ) hx hP hQ
  have hne : (xQ : ZMod p) - xP ≠ 0 := sub_ne_zero.mpr fun h => hx ((cast_inj_of_lt hQ hP).mp h).symm
  refine ⟨lam, hadd, hlt, (ZMod.intCast_eq_intCast_iff _ _ p).mp ?_⟩
  push_cast
  rw [hlam, div_mul_cancel₀ _ hne]

end Add

/-- Settles O35: PADD completes with the value of `add`, which is the other operand, Infinity or the end of the chord. -/
theorem paddWritesTheSum : Obligations.PaddWritesTheSum := by
  intro s pd ps1 ps2 hprime hodd hP hQ
  have hexec := exec_padd_of_precondition (pd := pd) ⟨hprime, hodd, hP, hQ⟩
  refine ⟨fun h1 => exec_writes_of_ok hexec (h1 ▸ add_infinity_left _),
    fun h2 => exec_writes_of_ok hexec (h2 ▸ add_infinity_right _), fun xP yP xQ yQ h1 h2 => ?_⟩
  rw [h1] at hP hexec
  rw [h2] at hQ hexec
  constructor
  · rintro rfl hne hopp
    exact exec_writes_of_ok hexec (add_of_opposite hne hopp)
  · intro hx
    obtain ⟨lam, hadd, hlam, hslope⟩ :=
      add_of_x_ne_modEq (yP := yP) (yQ := yQ) hprime hx (reduced_affine.mp hP).1 (reduced_affine.mp hQ).1
    obtain ⟨xR, yR, hR, hxR, hyR, hx3, hy3⟩ := chordPoint_modEq hprime.pos lam xP yP xQ
    obtain ⟨t, ht, hpt, hstatus, hframe⟩ := exec_writes_of_ok hexec hadd
    exact ⟨t, ht, lam, xR, yR, hpt.trans hR, hlam, hxR, hyR, hslope, hx3, hy3, hstatus, hframe⟩

/-- Settles O36: `add` tests for the same point first, and finds no inverse of the difference of equal abscissas. -/
theorem paddRaises : Obligations.PaddRaises := by
  intro s pd ps1 ps2 x yP yQ hprime hodd hP hQ h1 h2
  have hexec := exec_padd_of_precondition (pd := pd) ⟨hprime, hodd, hP, hQ⟩
  rw [h1, h2] at hexec
  constructor
  · rintro rfl
    exact exec_raises_of_error hexec (add_same_affine _ _ _)
  · exact fun hne hopp => exec_raises_of_error hexec (add_of_not_opposite hne hopp)

end Sys2Proof.Machine
end

section
/-! PROOFS. The statements of 44_ecc_point_doubler.md: what PDBL writes and where it raises (rules R121, R122). -/

namespace Sys2Proof.Machine

/-! ### The doubler, one equation per case of rule R121 -/

section Double
variable {a b p x y : Nat}

theorem double_infinity (a b p : Nat) : double a b p .infinity = .ok .infinity := rfl

/-- The curve is checked first, so y plays no part (60_exceptions.md rule R185). -/
theorem double_of_not_onCurve (hoff : y * y % p ≠ (x * x * x + a * x + b) % p) :
    double a b p (.affine x y) = .error .notOnCurve :=
  if_neg fun hon => hoff ((isOnCurve_affine_iff_mod_eq a b p x y).mp hon)

/-- `double` on a point of the curve with y not 0, with the slope as the integers modulo p have it. -/
theorem double_of_y_ne_modEq (hp : p.Prime) (hodd : p % 2 = 1) (hy0 : y ≠ 0) (hy : y < p)
    (hon : y * y % p = (x * x * x + a * x + b) % p) :
    ∃ lam, double a b p (.affine x y) = .ok (chordPoint p lam x y x) ∧ lam < p ∧
      (lam : Int) * (2 * y) ≡ 3 * x * x + a [ZMOD p] := by
  have : Fact p.Prime := ⟨hp⟩
  obtain ⟨lam, hdbl, hlt, hlam⟩ := double_of_y_ne hodd hy0 hy ((isOnCurve_affine_iff_mod_eq a b p x y).mpr hon)
  have hyz : (y : ZMod p) ≠ 0 := by simpa using (cast_inj_of_lt hy hp.pos).not.mpr hy0
  have hne : (2 : ZMod p) * y ≠ 0 := mul_ne_zero (two_ne_zero_zmod hodd) hyz
  refine ⟨lam, hdbl, hlt, (ZMod.intCast_eq_intCast_iff _ _ p).mp ?_⟩
  push_cast
  rw [hlam, div_mul_cancel₀ _ hne]

/-- The end of a tangent: a chord whose two abscissas are one. -/
theorem tangentPoint_modEq (hp : 0 < p) (lam x y : Nat) : ∃ xR yR : Nat,
    chordPoint p lam x y x = .affine xR yR ∧ xR < p ∧ yR < p ∧
    (xR : Int) ≡ lam * lam - 2 * x [ZMOD p] ∧ (yR : Int) ≡ lam * (x - xR) - y [ZMOD p] := by
  have htwice : (lam : Int) * lam - x - x = lam * lam - 2 * x := by ring
  exact htwice ▸ chordPoint_modEq hp lam x y x

end Double

/-- Settles O37: PDBL completes with the value of `double`, which is Infinity or the end of the tangent. -/
theorem pdblWritesTheDouble : Obligations.PdblWritesTheDouble := by
  intro s pd ps1 hc hP
  have hexec := exec_pdbl_of_precondition (pd := pd) ⟨hc, hP⟩
  refine ⟨fun hinf => exec_writes_of_ok hexec ((congrArg _ hinf).trans (double_infinity _ _ _)),
    fun x y haff hy0 hon => ?_⟩
  rw [haff] at hP hexec
  obtain ⟨lam, hdbl, hlam, hslope⟩ := double_of_y_ne_modEq hc.prime hc.odd hy0 (reduced_affine.mp hP).2 hon
  obtain ⟨xR, yR, hR, hxR, hyR, hx3, hy3⟩ := tangentPoint_modEq hc.prime.pos lam x y
  obtain ⟨t, ht, hpt, hstatus, hframe⟩ := exec_writes_of_ok hexec hdbl
  exact ⟨t, ht, lam, xR, yR, hpt.trans hR, hlam, hxR, hyR, hslope, hx3, hy3, hstatus, hframe⟩

/-- Settles O38: `double` checks the curve first, and finds no inverse of 2·0. -/
theorem pdblRaises : Obligations.PdblRaises := by
  intro s pd ps1 x y hc hP haff
  have hexec := exec_pdbl_of_precondition (pd := pd) ⟨hc, hP⟩
  rw [haff] at hexec
  constructor
  · exact fun hoff => exec_raises_of_error hexec (double_of_not_onCurve hoff)
  · rintro hon rfl
    exact exec_raises_of_error hexec (double_of_y_zero ((isOnCurve_affine_iff_mod_eq _ _ _ _ _).mpr hon))

end Sys2Proof.Machine
end

section
/-! PROOFS. The statements of 45_ecc_scalar_multiplier_dbl_add.md: how SMULDA completes (rule R131), that both scalar commands
write Infinity with K = 0 (rule R165), and how many additions and doublings the two algorithms make (rules R131, R142,
R221). -/

namespace Sys2Proof.Machine

/-! ### SMULDA (rule R131) -/

/-- Settles O43: under its precondition SMULDA completes with the outcome of double-and-add. -/
theorem smuldaCompletesAsDoubleAndAdd : Obligations.SmuldaCompletesAsDoubleAndAdd := by
  intro s pd ps1 hc hP
  have hexec := exec_smulda_of_precondition (pd := pd) ⟨hc, hP⟩
  exact ⟨fun _ => exec_writes_of_ok hexec, fun _ => exec_raises_of_error hexec⟩

/-! ### K = 0 (rule R165) -/

section Zero
variable (a b p : Nat) (P : Point)

theorem scalarMulDoubleAndAdd_zero : scalarMulDoubleAndAdd a b p P 0 = .ok .infinity := rfl

theorem scalarMulLadder_zero : scalarMulLadder a b p P 0 = .ok .infinity := rfl

end Zero

/-- Settles O45: 0 has no bits, so neither algorithm examines the point. -/
theorem scalarZeroGivesInfinity : Obligations.ScalarZeroGivesInfinity := by
  rintro s pd ps1 i (rfl | rfl) hc hk
  · exact exec_writes_of_ok (exec_smulda_of_precondition ⟨hc, .inr hk⟩) (hk ▸ scalarMulDoubleAndAdd_zero ..)
  · exact exec_writes_of_ok (exec_smulml_of_precondition ⟨hc, .inr hk⟩) (hk ▸ scalarMulLadder_zero ..)

/-! ### The counts (rules R131, R142, R221)

A counting loop is the plain loop beside a counter: each iteration makes one doubling, and an addition on the bits for which
the algorithm calls for one. -/

/-- The count after one more doubling and, if `adds`, one more addition. -/
def CallCount.tick (c : CallCount) (adds : Bool) : CallCount := ⟨c.adds + adds.toNat, c.doubles + 1⟩

section Counts
variable {a b p : Nat}

theorem countedDblAddStep_eq (w : Point × Point) (c : CallCount) (set : Bool) :
    countedDblAddStep a b p (w, c) set = (dblAddStep a b p w set).map fun w' => (w', c.tick set) := by
  simp only [countedDblAddStep, dblAddStep, countedAdd, countedDouble]
  cases set with
  | false => cases double a b p w.2 <;> rfl
  | true =>
    cases add p w.1 w.2 with
    | error _ => rfl
    | ok _ => cases double a b p w.2 <;> rfl

theorem countedLadderStep_eq (w : Point × Point) (c : CallCount) (set : Bool) :
    countedLadderStep a b p (w, c) set = (ladderStep a b p w set).map fun w' => (w', c.tick true) := by
  simp only [countedLadderStep, ladderStep, countedAdd, countedDouble]
  cases add p w.1 w.2 with
  | error _ => rfl
  | ok _ => cases double a b p (if set then w.2 else w.1) <;> rfl

/-- The count after an iteration for each of the bits. -/
theorem foldl_tick (adds : Bool → Bool) (bits : List Bool) (c : CallCount) :
    bits.foldl (fun c set => c.tick (adds set)) c = ⟨c.adds + bits.countP adds, c.doubles + bits.length⟩ := by
  induction bits generalizing c with
  | nil => rfl
  | cons set bits ih =>
    rw [List.foldl_cons, ih, List.countP_cons, List.length_cons, CallCount.tick]
    cases adds set <;> simp [Nat.add_comm, Nat.add_left_comm]

/-- Where every step carries a counter beside the working state, so does the loop. -/
theorem foldlM_map_counter {α β γ ε : Type} {f : β → α → Except ε β} {g : β × γ → α → Except ε (β × γ)} {tick : γ → α → γ}
    (hg : ∀ w c v, g (w, c) v = (f w v).map fun w' => (w', tick c v)) (l : List α) (w : β) (c : γ) :
    l.foldlM g (w, c) = (l.foldlM f w).map fun w' => (w', l.foldl tick c) := by
  induction l generalizing w c with
  | nil => rfl
  | cons v l ih =>
    rw [List.foldlM_cons, List.foldlM_cons, List.foldl_cons, hg]
    cases f w v with
    | error _ => rfl
    | ok w' => exact ih w' (tick c v)

/-- Either multiplication, counted: its step makes one doubling, and an addition on the bits that `adds` holds of. -/
theorem countedLoop_eq {f : Point × Point → Bool → Except ErrorKind (Point × Point)}
    {g : (Point × Point) × CallCount → Bool → Except ErrorKind ((Point × Point) × CallCount)} {adds : Bool → Bool}
    (hg : ∀ w c set, g (w, c) set = (f w set).map fun w' => (w', c.tick (adds set))) (bits : List Bool) (P : Point) :
    (do let w ← bits.foldlM g ((.infinity, P), ⟨0, 0⟩); return (w.1.1, w.2)) =
      (do let w ← bits.foldlM f (.infinity, P); return w.1 : Except ErrorKind Point).map
        fun R => (R, ⟨bits.countP adds, bits.length⟩) := by
  rw [foldlM_map_counter hg, foldl_tick, Nat.zero_add, Nat.zero_add]
  cases bits.foldlM f (.infinity, P) <;> rfl

theorem length_bitsOf (k : Nat) : (bitsOf k).length = numBits k := by rw [bitsOf, List.length_map, List.length_range]

theorem countedLadder_eq (P : Point) (k : Nat) :
    countedLadder a b p P k = (scalarMulLadder a b p P k).map fun R => (R, ⟨numBits k, numBits k⟩) := by
  rw [countedLadder, countedLoop_eq (adds := fun _ => true) countedLadderStep_eq, List.countP_true, List.length_reverse,
    length_bitsOf]
  rfl

theorem countedDoubleAndAdd_eq (P : Point) (k : Nat) :
    countedDoubleAndAdd a b p P k = (scalarMulDoubleAndAdd a b p P k).map fun R => (R, ⟨hammingWeight k, numBits k⟩) := by
  have hstep (w : Point × Point) (c : CallCount) (set : Bool) : countedDblAddStep a b p (w, c) set =
      (dblAddStep a b p w set).map fun w' => (w', c.tick (set == true)) := by
    rw [beq_true, countedDblAddStep_eq]
  rw [countedDoubleAndAdd, countedLoop_eq hstep, length_bitsOf]
  rfl

end Counts

/-- Settles O53: one iteration for each bit, with one doubling each; the ladder adds in every one, double-and-add on the set
bits alone. -/
theorem pointOperationCounts : Obligations.PointOperationCounts :=
  fun _ _ _ k P => ⟨countedLadder_eq P k, countedDoubleAndAdd_eq P k⟩

end Sys2Proof.Machine
end

section
/-! PROOFS. The statements of 46_ecc_scalar_multiplier_mont_ladder.md: how SMULML completes (rule R141), that leading zero bits
do not matter to the ladder (rule R140), and that on a valid curve it never adds a point to itself (rule R141). -/

namespace Sys2Proof.Machine

/-! ### SMULML (rule R141) -/

/-- Settles O44: under its precondition SMULML completes with the outcome of the ladder. -/
theorem smulmlCompletesAsLadder : Obligations.SmulmlCompletesAsLadder := by
  intro s pd ps1 hc hP
  have hexec := exec_smulml_of_precondition (pd := pd) ⟨hc, hP⟩
  exact ⟨fun _ => exec_writes_of_ok hexec, fun _ => exec_raises_of_error hexec⟩

/-! ### Leading zero bits (rule R140) -/

section LeadingZeros
variable (a b p : Nat) (P : Point)

/-- With R0 still Infinity a zero bit changes nothing: both calls answer at once with an operand. -/
theorem ladderStep_infinity_false : ladderStep a b p (.infinity, P) false = .ok (.infinity, P) := rfl

theorem foldlM_ladderStep_replicate_false (n : Nat) :
    (List.replicate n false).foldlM (ladderStep a b p) (.infinity, P) = .ok (.infinity, P) := by
  induction n with
  | zero => rfl
  | succ n ih =>
    rw [List.replicate_succ, List.foldlM_cons, ladderStep_infinity_false]
    exact ih

end LeadingZeros

/-- Settles O51: after the leading zero bits the ladder is where it began. -/
theorem ladderIgnoresLeadingZeros : Obligations.LadderIgnoresLeadingZeros := by
  intro a b p n P bits
  rw [ladderBits, ladderBits, List.foldlM_append, foldlM_ladderStep_replicate_false]
  rfl

/-! ### The ladder's invariant

After the bits of m the working points (R0, R1) stand for m·A and (m + 1)·A. They differ by A, so that they are never one
affine point. -/

/-- An error that no iteration raises where an invariant holds is not raised by the loop. -/
theorem foldlM_ne_error_of_inv {α β ε : Type} {e : ε} {f : β → α → Except ε β} (inv : β → Prop)
    (hok : ∀ {w v w'}, inv w → f w v = .ok w' → inv w') (hne : ∀ {w v}, inv w → f w v ≠ .error e) (l : List α) :
    ∀ {w}, inv w → l.foldlM f w ≠ .error e := by
  induction l with
  | nil => exact fun _ h => nomatch h
  | cons v l ih =>
    intro w hw
    rw [List.foldlM_cons]
    cases hv : f w v with
    | error e' =>
      rintro ⟨⟩
      exact hne hw hv
    | ok w' => exact ih (hok hw hv)

/-- The ladder raises EqualPointsError nowhere but in the addition: the doubling has no such error. -/
theorem ladderStep_ne_equalPoints {a b p : Nat} {w : Point × Point} (set : Bool) (hadd : add p w.1 w.2 ≠ .error .equalPoints) :
    ladderStep a b p w set ≠ .error .equalPoints :=
  have hdouble (Q : Point) : double a b p Q ≠ .error .equalPoints := fun h => by simpa using eq_of_double_eq_error h
  bind_ne_error hadd fun _ => bind_ne_error (hdouble _) fun _ h => nomatch h

section OnCurve
variable {a b p : Nat} [Fact p.Prime] {P Q R : Point} {A B : (curveOf a b p).Point} {m : Nat} {w w' : Point × Point}

theorem represents_of_add_eq_ok (hP : P.reduced p = true) (hQ : Q.reduced p = true) (hA : Represents P A)
    (hB : Represents Q B) (h : add p P Q = .ok R) : Represents R (A + B) := by
  obtain ⟨-, -, herr⟩ | ⟨-, S, hS, -, hrep⟩ := add_represents hP hQ hA hB
  · cases herr.symm.trans h
  · cases hS.symm.trans h
    exact hrep

theorem represents_of_double_eq_ok (hodd : p % 2 = 1) (hP : P.reduced p = true) (hA : Represents P A)
    (h : double a b p P = .ok R) : Represents R (A + A) := by
  obtain ⟨-, -, herr⟩ | ⟨-, S, hS, -, hrep⟩ := double_represents hodd hP hA
  · cases herr.symm.trans h
  · cases hS.symm.trans h
    exact hrep

/-- The working points after the bits of m, for a point that stands for `A`. -/
def LadderPair (A : (curveOf a b p).Point) (m : Nat) (w : Point × Point) : Prop :=
  ReducedPair p w ∧ Represents w.1 (m • A) ∧ Represents w.2 ((m + 1) • A)

theorem ladderPair_init (hP : P.reduced p = true) (hA : Represents P A) : LadderPair A 0 (.infinity, P) := by
  refine ⟨⟨rfl, hP⟩, ?_, ?_⟩
  · rw [zero_nsmul]
    trivial
  · rwa [zero_add, one_nsmul]

/-- An iteration takes the next bit into m. -/
theorem ladderStep_ladderPair (hodd : p % 2 = 1) {set : Bool} (hw : LadderPair A m w) (h : ladderStep a b p w set = .ok w') :
    LadderPair A (2 * m + set.toNat) w' := by
  obtain ⟨hred, h0, h1⟩ := hw
  refine ⟨ladderStep_reducedPair (Fact.out : p.Prime).pos hred h, ?_⟩
  obtain ⟨hred0, hred1⟩ := hred
  obtain ⟨S, hS, h⟩ := bind_eq_ok_iff.mp h
  obtain ⟨D, hD, ⟨⟩⟩ := bind_eq_ok_iff.mp h
  have hsum : Represents S ((2 * m + 1) • A) := by
    rw [show 2 * m + 1 = m + (m + 1) by omega, add_nsmul]
    exact represents_of_add_eq_ok hred0 hred1 h0 h1 hS
  cases set with
  | false =>
    refine ⟨?_, hsum⟩
    rw [Bool.toNat_false, add_zero, two_mul, add_nsmul]
    exact represents_of_double_eq_ok hodd hred0 h0 hD
  | true =>
    refine ⟨hsum, ?_⟩
    rw [Bool.toNat_true, show 2 * m + 1 + 1 = (m + 1) + (m + 1) by omega, add_nsmul]
    exact represents_of_double_eq_ok hodd hred1 h1 hD

/-- Were R0 and R1 the same element, `A` and with it R0 would be 0. -/
theorem LadderPair.add_ne_equalPoints (hw : LadderPair A m w) : add p w.1 w.2 ≠ .error .equalPoints := by
  obtain ⟨⟨hred0, hred1⟩, h0, h1⟩ := hw
  obtain ⟨heq, hne, -⟩ | ⟨-, S, hS, -⟩ := add_represents hred0 hred1 h0 h1
  · have hA : A = 0 := by simpa [succ_nsmul] using heq
    exact absurd (by rw [hA, nsmul_zero]) hne
  · simp [hS]

theorem ladderBits_ne_equalPoints_of_represents (hodd : p % 2 = 1) (hP : P.reduced p = true) (hA : Represents P A)
    (bits : List Bool) : ladderBits a b p P bits ≠ .error .equalPoints := by
  refine bind_ne_error (foldlM_ne_error_of_inv (fun w => ∃ m, LadderPair A m w) ?_ ?_ bits ⟨0, ladderPair_init hP hA⟩)
    fun _ h => nomatch h
  · rintro w set w' ⟨m, hw⟩ h
    exact ⟨_, ladderStep_ladderPair hodd hw h⟩
  · rintro w set ⟨m, hw⟩
    exact ladderStep_ne_equalPoints set hw.add_ne_equalPoints

end OnCurve

section OffCurve
variable {a b p : Nat} {P : Point}

theorem double_of_isOnCurve_eq_false (hoff : isOnCurve a b p P = false) : double a b p P = .error .notOnCurve := by
  cases P with
  | infinity => cases hoff
  | affine x y => exact if_neg (by simp [hoff])

/-- With R0 still Infinity a set bit puts P in R0 and its double in R1. -/
theorem ladderStep_infinity_true (a b p : Nat) (P : Point) :
    ladderStep a b p (.infinity, P) true = (double a b p P).map fun D => (P, D) := rfl

/-- The ladder stays at (Infinity, P) until the first set bit, where it raises NotOnCurveError. -/
theorem ladderBits_ne_equalPoints_of_isOnCurve_eq_false (hoff : isOnCurve a b p P = false) (bits : List Bool) :
    ladderBits a b p P bits ≠ .error .equalPoints := by
  refine bind_ne_error (foldlM_ne_error_of_inv (· = (.infinity, P)) ?_ ?_ bits rfl) fun _ h => nomatch h
  · rintro _ set w' rfl h
    cases set with
    | false => exact (Except.ok.inj h).symm
    | true =>
      rw [ladderStep_infinity_true, double_of_isOnCurve_eq_false hoff] at h
      cases h
  · rintro _ set rfl
    exact ladderStep_ne_equalPoints set (by simp [add_infinity_left])

end OffCurve

/-- Settles O50: on the curve R0 and R1 differ by the point throughout; off the curve R0 is Infinity until the ladder
stops. -/
theorem ladderNeverRaisesEqualPoints : Obligations.LadderNeverRaisesEqualPoints := by
  intro a b p k P hc hns hP
  have : Fact p.Prime := ⟨hc.prime⟩
  cases hon : isOnCurve a b p P with
  | false => exact ladderBits_ne_equalPoints_of_isOnCurve_eq_false hon _
  | true =>
    obtain ⟨A, hA⟩ := exists_represents hc.odd hns hon
    exact ladderBits_ne_equalPoints_of_represents hc.odd hP hA _

end Sys2Proof.Machine
end

section
/-! PROOFS. The statement of 47_system_commands.md: CLRERR clears the error record and nothing else (rule R150). -/

namespace Sys2Proof.Machine

/-- Settles O54: CLRERR is one write of STATUS. -/
theorem clrerrClearsTheErrorRecord : Obligations.ClrerrClearsTheErrorRecord := fun s =>
  ⟨_, exec_clrerr s, by simp, by simp, by simp, by simp, frame_of_status none none _ s.fresh rfl, rfl⟩

end Sys2Proof.Machine
end

section
/-! PROOFS. The statements of 48_laws_and_properties.md: the laws of `add` and `double` (rules R161 to R163), and what the two
scalar multiplications return (rules R164 to R168). -/

namespace Sys2Proof.Machine

open WeierstrassCurve

/-! ### Commutativity (rule R162) -/

section Commutes
variable {p : Nat} [hp : Fact p.Prime]

/-- A chord of slope `lam` ends in one point, whichever of its two points it is drawn from. -/
theorem chordPoint_comm {lam xP yP xQ yQ : Nat} (hslope : (lam : ZMod p) * (xQ - xP) = yQ - yP) :
    chordPoint p lam xP yP xQ = chordPoint p lam xQ yQ xP := by
  obtain ⟨xR, yR, hR, hx, hy, hxR, hyR⟩ := chordPoint_cast (p := p) lam xP yP xQ
  obtain ⟨xR', yR', hR', hx', hy', hxR', hyR'⟩ := chordPoint_cast (p := p) lam xQ yQ xP
  have hxx : (xR : ZMod p) = xR' := by rw [hxR, hxR', sub_right_comm]
  have hyy : (yR : ZMod p) = yR' := by
    rw [hyR, hyR', hxx]
    linear_combination -hslope
  rw [hR, hR', (cast_inj_of_lt hx hx').mp hxx, (cast_inj_of_lt hy hy').mp hyy]

theorem add_comm_of_x_ne {xP yP xQ yQ : Nat} (hx : xP ≠ xQ) (hP : xP < p) (hQ : xQ < p) :
    add p (.affine xP yP) (.affine xQ yQ) = add p (.affine xQ yQ) (.affine xP yP) := by
  obtain ⟨lam, hadd, hlt, hlam⟩ := add_of_x_ne (yP := yP) (yQ := yQ) hx hP hQ
  obtain ⟨lam', hadd', hlt', hlam'⟩ := add_of_x_ne (yP := yQ) (yQ := yP) hx.symm hQ hP
  have hne : (xQ : ZMod p) - xP ≠ 0 := sub_ne_zero.mpr fun h => hx ((cast_inj_of_lt hQ hP).mp h).symm
  have hsame : lam = lam' := by
    rw [← cast_inj_of_lt hlt hlt', hlam, hlam', ← neg_sub (yP : ZMod p), ← neg_sub (xP : ZMod p), neg_div_neg_eq]
  have hslope : (lam : ZMod p) * (xQ - xP) = yQ - yP := by rw [hlam, div_mul_cancel₀ _ hne]
  rw [hadd, hadd', ← hsame, chordPoint_comm hslope]

end Commutes

/-- Settles O40: the tests on equal abscissas treat both operands alike, and a chord has no direction. -/
theorem additionCommutes : Obligations.AdditionCommutes := by
  intro p P Q hp _ hP hQ
  have : Fact p.Prime := ⟨hp⟩
  match P, Q with
  | .infinity, Q => rw [add_infinity_left, add_infinity_right]
  | P, .infinity => rw [add_infinity_left, add_infinity_right]
  | .affine xP yP, .affine xQ yQ =>
    by_cases hx : xP = xQ
    · subst hx
      by_cases hy : yP = yQ
      · rw [hy]
      by_cases hopp : (yP + yQ) % p = 0
      · rw [add_of_opposite hy hopp, add_of_opposite (Ne.symm hy) (Nat.add_comm yP yQ ▸ hopp)]
      · rw [add_of_not_opposite hy hopp, add_of_not_opposite (Ne.symm hy) (Nat.add_comm yP yQ ▸ hopp)]
    · exact add_comm_of_x_ne hx (reduced_affine.mp hP).1 (reduced_affine.mp hQ).1

/-! ### Closure (rule R161)

Neither needs the curve to be non-singular: a line through two points of the curve meets it again in a point of the curve. -/

section Closure
variable {a b p : Nat} [hp : Fact p.Prime] {x y x₁ y₁ x₂ y₂ lam : Nat} {P Q R : Point} {e : ErrorKind}

theorem isOnCurve_chordPoint (h₁ : isOnCurve a b p (.affine x₁ y₁) = true) (h₂ : isOnCurve a b p (.affine x₂ y₂) = true)
    (hxy : ¬ ((x₁ : ZMod p) = x₂ ∧ (y₁ : ZMod p) = (curveOf a b p).negY x₂ y₂))
    (hlam : (lam : ZMod p) = (curveOf a b p).slope x₁ x₂ y₁ y₂) :
    isOnCurve a b p (chordPoint p lam x₁ y₁ x₂) = true := by
  obtain ⟨xR, yR, hR, -, -, hxR, hyR⟩ := chordPoint_cast (p := p) lam x₁ y₁ x₂
  have hx : (xR : ZMod p) = (curveOf a b p).addX x₁ x₂ lam := by
    rw [hxR]
    simp only [Affine.addX, curveOf]
    ring
  have hy : (yR : ZMod p) = (curveOf a b p).addY x₁ x₂ y₁ lam := by
    rw [hyR, hxR]
    simp only [Affine.addY, Affine.negAddY, Affine.negY, Affine.addX, curveOf]
    ring
  rw [hR, isOnCurve_affine, hx, hy, hlam]
  exact Affine.equation_add (isOnCurve_affine.mp h₁) (isOnCurve_affine.mp h₂) hxy

theorem isOnCurve_of_add_eq_ok (hP : P.reduced p = true) (hQ : Q.reduced p = true) (hPc : isOnCurve a b p P = true)
    (hQc : isOnCurve a b p Q = true) (h : add p P Q = .ok R) : isOnCurve a b p R = true := by
  match P, Q with
  | .infinity, Q => exact Except.ok.inj h ▸ hQc
  | .affine .., .infinity => exact Except.ok.inj h ▸ hPc
  | .affine x₁ y₁, .affine x₂ y₂ =>
    by_cases hx : x₁ = x₂
    · subst hx
      by_cases hy : y₁ = y₂
      · subst hy
        cases (add_same_affine p x₁ y₁).symm.trans h
      by_cases hopp : (y₁ + y₂) % p = 0
      · exact Except.ok.inj ((add_of_opposite hy hopp).symm.trans h) ▸ isOnCurve_infinity a b p
      · cases (add_of_not_opposite hy hopp).symm.trans h
    · have hP₁ := (reduced_affine.mp hP).1
      have hQ₁ := (reduced_affine.mp hQ).1
      have hxz : (x₁ : ZMod p) ≠ x₂ := fun e => hx ((cast_inj_of_lt hP₁ hQ₁).mp e)
      obtain ⟨lam, hadd, -, hlam⟩ := add_of_x_ne (yP := y₁) (yQ := y₂) hx hP₁ hQ₁
      rw [← Except.ok.inj (hadd.symm.trans h)]
      refine isOnCurve_chordPoint hPc hQc (fun e => hxz e.1) ?_
      rw [Affine.slope_of_X_ne hxz, hlam, ← neg_sub (y₁ : ZMod p), ← neg_sub (x₁ : ZMod p), neg_div_neg_eq]

/-- The double of a point of the curve with y not 0 is a point of the curve. -/
theorem exists_double_eq_ok (hodd : p % 2 = 1) (hy0 : y ≠ 0) (hy : y < p)
    (hon : isOnCurve a b p (.affine x y) = true) :
    ∃ R, double a b p (.affine x y) = .ok R ∧ isOnCurve a b p R = true := by
  obtain ⟨lam, hdbl, -, hlam⟩ := double_of_y_ne hodd hy0 hy hon
  have hyz : (y : ZMod p) ≠ 0 := by simpa using (cast_inj_of_lt hy hp.out.pos).not.mpr hy0
  have hneg : (y : ZMod p) ≠ (curveOf a b p).negY x y := by
    intro e
    simp only [Affine.negY, curveOf] at e
    exact mul_ne_zero (two_ne_zero_zmod hodd) hyz (by linear_combination e)
  refine ⟨_, hdbl, isOnCurve_chordPoint hon hon (fun e => hneg e.2) ?_⟩
  rw [Affine.slope_of_Y_ne rfl hneg, hlam]
  simp only [Affine.negY, curveOf]
  congr 1 <;> ring

theorem isOnCurve_of_double_eq_ok (hodd : p % 2 = 1) (hP : P.reduced p = true) (hon : isOnCurve a b p P = true)
    (h : double a b p P = .ok R) : isOnCurve a b p R = true := by
  match P with
  | .infinity => exact Except.ok.inj h ▸ isOnCurve_infinity a b p
  | .affine x 0 => cases (double_of_y_zero hon).symm.trans h
  | .affine x (y + 1) =>
    obtain ⟨S, hS, hSc⟩ := exists_double_eq_ok hodd y.succ_ne_zero (reduced_affine.mp hP).2 hon
    exact Except.ok.inj (hS.symm.trans h) ▸ hSc

theorem double_eq_error_iff (hodd : p % 2 = 1) (hP : P.reduced p = true) (hon : isOnCurve a b p P = true) :
    double a b p P = .error e ↔ e = .undefinedInverse ∧ ∃ x, P = .affine x 0 := by
  match P with
  | .infinity => simp [double_infinity]
  | .affine x 0 => simp [double_of_y_zero hon, eq_comm]
  | .affine x (y + 1) =>
    obtain ⟨S, hS, -⟩ := exists_double_eq_ok hodd y.succ_ne_zero (reduced_affine.mp hP).2 hon
    simp [hS]

end Closure

/-- Settles O41: the third point of a chord or a tangent is on the curve, and a tangent exists but where y = 0. -/
theorem addAndDoubleStayOnTheCurve : Obligations.AddAndDoubleStayOnTheCurve := by
  intro a b p P Q hc hP hQ hPc hQc
  have : Fact p.Prime := ⟨hc.prime⟩
  exact ⟨fun _ => isOnCurve_of_double_eq_ok hc.odd hP hPc, fun _ => double_eq_error_iff hc.odd hP hPc,
    fun _ => isOnCurve_of_add_eq_ok hP hQ hPc hQc⟩

/-! ### Associativity (rule R163) -/

/-- Settles O42: both sides stand for the sum of three elements of the group. -/
theorem additionAssociates : Obligations.AdditionAssociates := by
  intro a b p P Q R S T L M hc hns hP hQ hR hPc hQc hRc hS hL hT hM
  have : Fact p.Prime := ⟨hc.prime⟩
  obtain ⟨A, hA⟩ := exists_represents hc.odd hns hPc
  obtain ⟨B, hB⟩ := exists_represents hc.odd hns hQc
  obtain ⟨C, hC⟩ := exists_represents hc.odd hns hRc
  have hSr := add_reduced hc.prime.pos hP hQ hS
  have hTr := add_reduced hc.prime.pos hQ hR hT
  have hLrep : Represents L (A + B + C) :=
    represents_of_add_eq_ok hSr hR (represents_of_add_eq_ok hP hQ hA hB hS) hC hL
  have hMrep : Represents M (A + (B + C)) :=
    represents_of_add_eq_ok hP hTr hA (represents_of_add_eq_ok hQ hR hB hC hT) hM
  exact represents_inj (add_reduced hc.prime.pos hSr hR hL) (add_reduced hc.prime.pos hP hTr hM) hLrep
    (add_assoc A B C ▸ hMrep)

/-! ### k = 1 (rule R165) -/

section One
variable (a b p : Nat) (P : Point)

/-- The one iteration adds P to Infinity and doubles P; the double is checked and not used. -/
theorem scalarMulDoubleAndAdd_one : scalarMulDoubleAndAdd a b p P 1 = (double a b p P).map fun _ => P := by
  have hstep : dblAddStep a b p (.infinity, P) true = (double a b p P).map fun D => (P, D) := rfl
  have hbits : bitsOf 1 = [true] := rfl
  rw [scalarMulDoubleAndAdd, hbits, List.foldlM_cons, hstep]
  cases double a b p P <;> rfl

theorem scalarMulLadder_one : scalarMulLadder a b p P 1 = (double a b p P).map fun _ => P := by
  have hbits : (bitsOf 1).reverse = [true] := rfl
  rw [scalarMulLadder, ladderBits, hbits, List.foldlM_cons, ladderStep_infinity_true]
  cases double a b p P <;> rfl

end One

/-- Settles O46: with k = 1 both algorithms double P once, raise what `double` raises, and return P otherwise. -/
theorem scalarOneGivesThePointOrRaises : Obligations.ScalarOneGivesThePointOrRaises := by
  intro a b p P mul hmul hc hP
  have : Fact p.Prime := ⟨hc.prime⟩
  have hone : mul a b p P 1 = (double a b p P).map fun _ => P := by
    obtain rfl | rfl := hmul
    · exact scalarMulDoubleAndAdd_one a b p P
    · exact scalarMulLadder_one a b p P
  rw [hone]
  refine ⟨fun hon hy => ?_, fun hon hy => ?_, fun hoff => ?_⟩
  · cases hdbl : double a b p P with
    | ok _ => rfl
    | error e =>
      obtain ⟨-, x, hx⟩ := (double_eq_error_iff hc.odd hP hon).mp hdbl
      exact absurd hx (hy x)
  · rw [(double_eq_error_iff hc.odd hP hon).mpr ⟨rfl, hy⟩]
    rfl
  · rw [double_of_isOnCurve_eq_false hoff]
    rfl

/-! ### The bits of a scalar, by its binary recursion -/

theorem bit_eq_testBit (k i : Nat) : bit k i = k.testBit i := by
  rw [Nat.testBit_eq_decide_div_mod_eq, bit]
  rfl

theorem numBits_bit {set : Bool} {k : Nat} (hk : k = 0 → set = true) : numBits (Nat.bit set k) = numBits k + 1 := by
  rcases eq_or_ne k 0 with rfl | h0
  · rw [hk rfl]
    rfl
  · have htwo : 2 ≤ Nat.bit set k := by
      rw [Nat.bit_val]
      omega
    rw [numBits_of_ne_zero (Nat.bit_ne_zero set h0), numBits_of_ne_zero h0, Nat.log2_def, if_pos htwo, Nat.bit_div_two]

/-- What the least significant bit adds to m, and what is left for the other bits. -/
theorem add_bit_mul (m n k : Nat) (set : Bool) : m + Nat.bit set k * n = m + set.toNat * n + k * (2 * n) := by
  rw [Nat.bit_val]
  ring

/-- The least significant bit comes first. -/
theorem bitsOf_bit {set : Bool} {k : Nat} (hk : k = 0 → set = true) : bitsOf (Nat.bit set k) = set :: bitsOf k := by
  rw [bitsOf, bitsOf, numBits_bit hk, List.range_succ_eq_map, List.map_cons, List.map_map]
  congr 1
  · rw [bit_eq_testBit, Nat.testBit_bit_zero]
  · refine List.map_congr_left fun i _ => ?_
    rw [Function.comp_apply, bit_eq_testBit, bit_eq_testBit, Nat.testBit_bit_succ]

/-! ### Both algorithms compute multiples in the group (rule R168) -/

theorem dblAddStep_eq_bind (a b p : Nat) (w : Point × Point) (set : Bool) :
    dblAddStep a b p w set = (if set then add p w.1 w.2 else .ok w.1) >>= fun Q =>
      double a b p w.2 >>= fun D => .ok (Q, D) := by
  cases set <;> rfl

section Multiples
variable {a b p : Nat} [Fact p.Prime] {P R : Point} {A : (curveOf a b p).Point} {k m n : Nat} {w w' : Point × Point}

/-- Both working points are reduced, and they stand for m·A and n·A. `LadderPair A m` is this for n = m + 1. -/
def MultiplePair (A : (curveOf a b p).Point) (m n : Nat) (w : Point × Point) : Prop :=
  ReducedPair p w ∧ Represents w.1 (m • A) ∧ Represents w.2 (n • A)

/-- An iteration of double-and-add adds n·A on a set bit, and doubles n·A. -/
theorem dblAddStep_multiplePair (hodd : p % 2 = 1) {set : Bool} (hw : MultiplePair A m n w)
    (h : dblAddStep a b p w set = .ok w') : MultiplePair A (m + set.toNat * n) (2 * n) w' := by
  obtain ⟨hred, hQ, hP⟩ := hw
  refine ⟨dblAddStep_reducedPair (Fact.out : p.Prime).pos hred h, ?_⟩
  obtain ⟨hredQ, hredP⟩ := hred
  rw [dblAddStep_eq_bind] at h
  obtain ⟨Q', hQ', h⟩ := bind_eq_ok_iff.mp h
  obtain ⟨D, hD, ⟨⟩⟩ := bind_eq_ok_iff.mp h
  have hdbl : Represents D ((2 * n) • A) := by
    rw [two_mul, add_nsmul]
    exact represents_of_double_eq_ok hodd hredP hP hD
  cases set with
  | false =>
    cases hQ'
    rw [Bool.toNat_false, Nat.zero_mul, Nat.add_zero]
    exact ⟨hQ, hdbl⟩
  | true =>
    rw [Bool.toNat_true, Nat.one_mul, add_nsmul]
    exact ⟨represents_of_add_eq_ok hredQ hredP hQ hP hQ', hdbl⟩

/-- From m·A and n·A the loop of double-and-add over the bits of k reaches (m + k·n)·A. -/
theorem foldlM_dblAddStep_represents (hodd : p % 2 = 1) (hw : MultiplePair A m n w)
    (h : (bitsOf k).foldlM (dblAddStep a b p) w = .ok w') : Represents w'.1 ((m + k * n) • A) := by
  induction k using Nat.binaryRec' generalizing m n w with
  | zero =>
    cases h
    rw [Nat.zero_mul, Nat.add_zero]
    exact hw.2.1
  | bit set k hk ih =>
    rw [bitsOf_bit hk] at h
    obtain ⟨w₁, hw₁, h⟩ := bind_eq_ok_iff.mp h
    exact add_bit_mul m n k set ▸ ih (dblAddStep_multiplePair hodd hw hw₁) h

theorem scalarMulDoubleAndAdd_represents (hodd : p % 2 = 1) (hP : P.reduced p = true) (hA : Represents P A)
    (h : scalarMulDoubleAndAdd a b p P k = .ok R) : Represents R (k • A) := by
  obtain ⟨w, hw, ⟨⟩⟩ := bind_eq_ok_iff.mp h
  simpa using foldlM_dblAddStep_represents hodd (ladderPair_init hP hA) hw

/-- The ladder's invariant after all the bits of k. -/
theorem foldlM_ladderStep_ladderPair (hodd : p % 2 = 1) (hP : P.reduced p = true) (hA : Represents P A)
    (h : (bitsOf k).reverse.foldlM (ladderStep a b p) (.infinity, P) = .ok w) : LadderPair A k w := by
  induction k using Nat.binaryRec' generalizing w with
  | zero =>
    cases h
    exact ladderPair_init hP hA
  | bit set k hk ih =>
    rw [bitsOf_bit hk, List.reverse_cons, List.foldlM_append] at h
    obtain ⟨w₁, hw₁, h⟩ := bind_eq_ok_iff.mp h
    obtain ⟨w₂, hw₂, ⟨⟩⟩ := bind_eq_ok_iff.mp h
    rw [Nat.bit_val]
    exact ladderStep_ladderPair hodd (ih hw₁) hw₂

theorem scalarMulLadder_represents (hodd : p % 2 = 1) (hP : P.reduced p = true) (hA : Represents P A)
    (h : scalarMulLadder a b p P k = .ok R) : Represents R (k • A) := by
  obtain ⟨w, hw, ⟨⟩⟩ := bind_eq_ok_iff.mp h
  exact (foldlM_ladderStep_ladderPair hodd hP hA hw).2.1

end Multiples

/-- Settles O47: the invariant of either loop, at its end. -/
theorem scalarMultiplicationIsTheGroupMultiple : Obligations.ScalarMultiplicationIsTheGroupMultiple := by
  intro a b p _ P hc hns hP hon
  obtain ⟨A, hA⟩ := exists_represents hc.odd hns hon
  exact ⟨A, hA, fun k R => ⟨scalarMulDoubleAndAdd_represents hc.odd hP hA, scalarMulLadder_represents hc.odd hP hA⟩⟩

/-- Settles O48: both results are reduced and stand for k·P. -/
theorem theTwoMultipliersAgree : Obligations.TheTwoMultipliersAgree := by
  intro a b p k P R R' hc hns hP hon hR hR'
  have : Fact p.Prime := ⟨hc.prime⟩
  obtain ⟨A, hA⟩ := exists_represents hc.odd hns hon
  exact represents_inj (scalarMulDoubleAndAdd_reduced hc.prime.pos (.inl hP) hR)
    (scalarMulLadder_reduced hc.prime.pos (.inl hP) hR')
    (scalarMulDoubleAndAdd_represents hc.odd hP hA hR) (scalarMulLadder_represents hc.odd hP hA hR')

/-- Settles O52: both sides are reduced and stand for 5·P. -/
theorem ladderOfFiveIsTheScenario : Obligations.LadderOfFiveIsTheScenario := by
  intro a b p P D DD R R' hc hns hP hon hR hD hDD hR'
  have : Fact p.Prime := ⟨hc.prime⟩
  obtain ⟨A, hA⟩ := exists_represents hc.odd hns hon
  have hDr := double_reduced hc.prime.pos hD
  have hDDr := double_reduced hc.prime.pos hDD
  have hDrep := represents_of_double_eq_ok hc.odd hP hA hD
  have hDDrep := represents_of_double_eq_ok hc.odd hDr hDrep hDD
  have hfive : 5 • A = A + A + (A + A) + A := by abel
  exact represents_inj (scalarMulLadder_reduced hc.prime.pos (.inl hP) hR) (add_reduced hc.prime.pos hDDr hP hR')
    (scalarMulLadder_represents hc.odd hP hA hR) (hfive ▸ represents_of_add_eq_ok hDDr hP hDDrep hA hR')

/-! ### Points of odd order (rule R166)

In a group of odd order 2·B = 0 only for B = 0, so that no doubling raises; and below the order distinct multiples are distinct
elements, so that double-and-add never adds a point to itself. -/

/-- Where every iteration answers under an invariant and keeps it, the loop answers. -/
theorem exists_foldlM_eq_ok {α β ε : Type} {f : β → α → Except ε β} (inv : β → Prop)
    (hok : ∀ {w v}, inv w → ∃ w', f w v = .ok w' ∧ inv w') (l : List α) : ∀ {w}, inv w → ∃ w', l.foldlM f w = .ok w' := by
  induction l with
  | nil => exact fun _ => ⟨_, rfl⟩
  | cons v l ih =>
    intro w hw
    obtain ⟨w₁, hw₁, hinv⟩ := hok (v := v) hw
    exact (ih hinv).imp fun _ h => bind_eq_ok_iff.mpr ⟨w₁, hw₁, h⟩

section OddOrder
variable {a b p : Nat} [Fact p.Prime] {P : Point} {A : (curveOf a b p).Point} {k m n : Nat} {w : Point × Point}

/-- No multiple of an element of odd order has order 2. -/
theorem nsmul_eq_zero_of_add_self (hord : addOrderOf A % 2 = 1) (h : m • A + m • A = 0) : m • A = 0 := by
  rw [← add_nsmul, ← two_mul, ← addOrderOf_dvd_iff_nsmul_eq_zero] at h
  rw [← addOrderOf_dvd_iff_nsmul_eq_zero]
  exact (Nat.coprime_two_right.mpr (Nat.odd_iff.mpr hord)).dvd_of_dvd_mul_left h

theorem exists_double_eq_ok_of_odd_order (hodd : p % 2 = 1) (hord : addOrderOf A % 2 = 1) (hP : P.reduced p = true)
    (hA : Represents P (m • A)) : ∃ D, double a b p P = .ok D := by
  obtain ⟨hzero, hne, -⟩ | ⟨-, D, hD, -⟩ := double_represents hodd hP hA
  · exact absurd (nsmul_eq_zero_of_add_self hord hzero) hne
  · exact ⟨D, hD⟩

theorem LadderPair.exists_ladderStep_eq_ok (hodd : p % 2 = 1) (hord : addOrderOf A % 2 = 1) (hw : LadderPair A m w)
    (set : Bool) : ∃ w', ladderStep a b p w set = .ok w' := by
  have hadd := hw.add_ne_equalPoints
  obtain ⟨⟨hred0, hred1⟩, h0, h1⟩ := hw
  obtain ⟨-, -, herr⟩ | ⟨-, S, hS, -⟩ := add_represents hred0 hred1 h0 h1
  · exact absurd herr hadd
  have hdouble : ∃ D, double a b p (if set then w.2 else w.1) = .ok D := by
    cases set with
    | false => exact exists_double_eq_ok_of_odd_order hodd hord hred0 h0
    | true => exact exists_double_eq_ok_of_odd_order hodd hord hred1 h1
  obtain ⟨D, hD⟩ := hdouble
  exact ⟨_, bind_eq_ok_iff.mpr ⟨S, hS, bind_eq_ok_iff.mpr ⟨D, hD, rfl⟩⟩⟩

theorem exists_scalarMulLadder_eq_ok (hodd : p % 2 = 1) (hord : addOrderOf A % 2 = 1) (hP : P.reduced p = true)
    (hA : Represents P A) (k : Nat) : ∃ R, scalarMulLadder a b p P k = .ok R := by
  obtain ⟨w, hw⟩ := exists_foldlM_eq_ok (f := ladderStep a b p) (fun w => ∃ m, LadderPair A m w)
    (fun {_ set} ⟨_, hw⟩ => (hw.exists_ladderStep_eq_ok hodd hord set).imp fun _ h =>
      ⟨h, _, ladderStep_ladderPair hodd hw h⟩)
    (bitsOf k).reverse ⟨0, ladderPair_init hP hA⟩
  exact ⟨w.1, bind_eq_ok_iff.mpr ⟨w, hw, rfl⟩⟩

theorem MultiplePair.exists_dblAddStep_eq_ok (hodd : p % 2 = 1) (hord : addOrderOf A % 2 = 1) (hw : MultiplePair A m n w)
    {set : Bool} (hne : set = true → m • A ≠ n • A) : ∃ w', dblAddStep a b p w set = .ok w' := by
  obtain ⟨⟨hredQ, hredP⟩, hQ, hP⟩ := hw
  obtain ⟨D, hD⟩ := exists_double_eq_ok_of_odd_order hodd hord hredP hP
  cases set with
  | false => exact ⟨_, bind_eq_ok_iff.mpr ⟨w.1, rfl, bind_eq_ok_iff.mpr ⟨D, hD, rfl⟩⟩⟩
  | true =>
    obtain ⟨heq, -, -⟩ | ⟨-, S, hS, -⟩ := add_represents hredQ hredP hQ hP
    · exact absurd heq (hne rfl)
    · exact ⟨_, bind_eq_ok_iff.mpr ⟨S, hS, bind_eq_ok_iff.mpr ⟨D, hD, rfl⟩⟩⟩

/-- Double-and-add stays below the order: on a set bit m < n < addOrderOf A, and these multiples differ. -/
theorem exists_foldlM_dblAddStep_eq_ok (hodd : p % 2 = 1) (hord : addOrderOf A % 2 = 1) (hmn : m < n)
    (hlt : m + k * n < addOrderOf A) (hw : MultiplePair A m n w) :
    ∃ w', (bitsOf k).foldlM (dblAddStep a b p) w = .ok w' := by
  induction k using Nat.binaryRec' generalizing m n w with
  | zero => exact ⟨w, rfl⟩
  | bit set k hk ih =>
    rw [add_bit_mul] at hlt
    have hne (hset : set = true) : m • A ≠ n • A := by
      have hn : n < addOrderOf A := by
        rw [hset, Bool.toNat_true] at hlt
        omega
      exact fun heq => hmn.ne (nsmul_injOn_Iio_addOrderOf (hmn.trans hn) hn heq)
    have hmn' : m + set.toNat * n < 2 * n := by cases set <;> simp <;> omega
    obtain ⟨w₁, hw₁⟩ := hw.exists_dblAddStep_eq_ok hodd hord hne
    obtain ⟨w', hw'⟩ := ih hmn' hlt (dblAddStep_multiplePair hodd hw hw₁)
    exact ⟨w', bitsOf_bit hk ▸ bind_eq_ok_iff.mpr ⟨w₁, hw₁, hw'⟩⟩

theorem exists_scalarMulDoubleAndAdd_eq_ok (hodd : p % 2 = 1) (hord : addOrderOf A % 2 = 1) (hP : P.reduced p = true)
    (hA : Represents P A) (hk : k < addOrderOf A) : ∃ R, scalarMulDoubleAndAdd a b p P k = .ok R := by
  have hlt : 0 + k * 1 < addOrderOf A := by rwa [Nat.zero_add, Nat.mul_one]
  obtain ⟨w, hw⟩ := exists_foldlM_dblAddStep_eq_ok hodd hord Nat.zero_lt_one hlt (ladderPair_init hP hA)
  exact ⟨w.1, bind_eq_ok_iff.mpr ⟨w, hw, rfl⟩⟩

end OddOrder

/-- Settles O49: on odd order no doubling meets a point of order 2, the ladder's working points always differ, and those of
double-and-add differ below the order. -/
theorem ladderIsTotalOnOddOrder : Obligations.LadderIsTotalOnOddOrder := by
  intro a b p _ P A hc _ hP hA hord
  refine ⟨fun k => ?_, fun k => exists_scalarMulDoubleAndAdd_eq_ok hc.odd hord hP hA⟩
  obtain ⟨R, hR⟩ := exists_scalarMulLadder_eq_ok hc.odd hord hP hA k
  exact ⟨R, hR, scalarMulLadder_represents hc.odd hP hA hR⟩

end Sys2Proof.Machine
end

section
/-! PROOFS. The statements of 60_exceptions.md: which commands never raise (rule R180), that an error completion writes no
register but STATUS (rules R183, R184), and that the block is idle between transactions (rule R191). -/

namespace Sys2Proof.Machine

/-! ### The completions with an error (rules R180, R183) -/

namespace CompletesAs
variable {i : Instr} {f : State → State}

/-- A command without a point register to write has no error completion. -/
theorem err_eq_zero (h : CompletesAs i f) (hpd : pointDest i = none) (s : State) : statusErr (f s).status = 0 := by
  obtain ⟨_, _, _, _, rfl⟩ | ⟨_, _, _, _, rfl⟩ | ⟨_, _, _, hsome, _, _⟩ | ⟨_, _, _, _, rfl⟩ | ⟨_, rfl⟩ := h
  case inr.inr.inl => cases hpd.symm.trans hsome
  all_goals simp

/-- A non-zero code tells the error completion from the other four. -/
theorem frame_of_err_ne_zero (h : CompletesAs i f) {s : State} (herr : statusErr (f s).status ≠ 0) :
    Frame none none s (f s) := by
  obtain ⟨_, _, _, _, rfl⟩ | ⟨_, _, _, _, rfl⟩ | ⟨_, _, _, _, _, rfl⟩ | ⟨_, _, _, _, rfl⟩ | ⟨_, rfl⟩ := h
  case inr.inr.inl => exact frame_of_status none none _ _ rfl
  all_goals simp at herr

end CompletesAs

/-- Every command, from every state, answers with one of its completions. -/
theorem exists_exec_eq (i : Instr) (s : State) : ∃ c, CompletesAs i c ∧ exec i s = .next (c s) :=
  (exec_completes i s).imp fun _ h => ⟨h.1, h.2 s.status⟩

/-- Settles O19: of the five ways to complete, the one with a non-zero code writes STATUS alone. -/
theorem errorsArePrecise : Obligations.ErrorsArePrecise := by
  intro i s t h herr
  obtain ⟨c, hc, rfl⟩ := exists_completion_of_exec h
  exact hc.frame_of_err_ne_zero herr

theorem exec_err_zero_of_pointDest {i : Instr} (hpd : pointDest i = none) (s : State) :
    ∃ t, exec i s = .next t ∧ statusErr t.status = 0 := by
  obtain ⟨c, hc, hexec⟩ := exists_exec_eq i s
  exact ⟨c s, hexec, hc.err_eq_zero hpd s⟩

/-- Settles O21: none of the five commands has a point register to write, and only such commands raise. -/
theorem fieldAndControlCommandsCompleteWithZero : Obligations.FieldAndControlCommandsCompleteWithZero := by
  rintro s fd fs1 fs2 ps1 i (rfl | rfl | rfl | rfl | rfl) <;> exact exec_err_zero_of_pointDest rfl s

/-! ### Between transactions (rule R191) -/

theorem step_of_pending_nil {s : State} (h : s.pending = []) : step s = .next s := by
  simp only [step, nextEvent, h]

/-- Settles O9: with no event to take, a step answers the state itself. -/
theorem idleStepKeepsTheState : Obligations.IdleStepKeepsTheState := fun _ => step_of_pending_nil

end Sys2Proof.Machine
end

section
/-! PROOFS. The statements of 70_reset_and_hazards.md: the reset event (rule R200), and that no state is stuck (rule R222). -/

namespace Sys2Proof.Machine

/-! ### The reset event (rule R200) -/

/-- Settles O56: the event sets STATUS to 0x00, and every free value fits its register. -/
theorem resetEventClearsStatus : Obligations.ResetEventClearsStatus := fun s rest hp hgeom =>
  ⟨_, step_of_pending hp, rfl, rfl, rfl, resetEvent_wf (s := s.advance rest) hgeom⟩

/-! ### No stuck state (rule R222) -/

theorem exists_runCommand_eq (w : CmdWord) (s : State) : ∃ t, runCommand w s = .next t := by
  unfold runCommand
  split
  · next i _ => exact (exists_exec_eq i s).imp' _ fun _ h => h.2
  · exact ⟨_, rfl⟩

theorem exists_performWr_eq (sel : Selector) (v : Nat) (s : State) : ∃ t, performWr sel v s = .next t := by
  unfold performWr
  split
  · exact exists_runCommand_eq _ s
  · exact ⟨_, rfl⟩

theorem exists_performEvent_eq (e : HostEvent) (s : State) : ∃ t, performEvent e s = .next t := by
  cases e with
  | wr sel v => exact exists_performWr_eq sel v s
  | rd sel => exact ⟨_, rfl⟩
  | reset => exact ⟨_, rfl⟩

/-- Settles O10: a step is idle or performs one event, and each event answers, a command by one of its completions. -/
theorem everyStepAnswersNext : Obligations.EveryStepAnswersNext := by
  intro s
  cases hp : s.pending with
  | nil => exact ⟨s, step_of_pending_nil hp⟩
  | cons e rest =>
    rw [step_of_pending hp]
    exact exists_performEvent_eq e _

end Sys2Proof.Machine
end

section
/-! PROOFS. The statements of 93_implementation_defined.md: what the model chooses for a command outside its precondition
(U1, U2, U3). -/

namespace Sys2Proof.Machine

/-! ### Field commands (log 5) -/

section FieldCommands
variable {s : State} {fd fs1 fs2 : FIdx}

theorem exec_montmul_of_not_precondition (h : ¬ Precondition (.montmul fd fs1 fs2) s) :
    exec (.montmul fd fs1 fs2) s = .next (s.completeFieldUnspecified fd) :=
  congrArg _ (if_neg fun ⟨⟨hp, hu, hv⟩, hodd⟩ => h ⟨hp, hodd, hu, hv⟩)

theorem exec_modadd_of_not_precondition (h : ¬ Precondition (.modadd fd fs1 fs2) s) :
    exec (.modadd fd fs1 fs2) s = .next (s.completeFieldUnspecified fd) := congrArg _ (if_neg h)

theorem exec_modsub_of_not_precondition (h : ¬ Precondition (.modsub fd fs1 fs2) s) :
    exec (.modsub fd fs1 fs2) s = .next (s.completeFieldUnspecified fd) := congrArg _ (if_neg h)

theorem completeFieldUnspecified_readF (s : State) (fd : FIdx) :
    (s.completeFieldUnspecified fd).readF fd = s.freeField 0 := (readF_setF s fd fd _).trans (if_pos rfl)

theorem exec_unspecified_field {i : Instr} (he : exec i s = .next (s.completeFieldUnspecified fd)) :
    ∃ t, exec i s = .next t ∧ t.readF fd < 2 ^ s.geom.W ∧ StatusOk s t ∧ Frame (some fd) none s t :=
  ⟨_, he, completeFieldUnspecified_readF s fd ▸ freeField_lt s 0, completeFieldUnspecified_status fd,
    completeFieldUnspecified_frame fd⟩

end FieldCommands

/-- Settles O30: outside its precondition a field command writes a free value of W bits and completes with 0. -/
theorem fieldCommandsOutsideTheirPrecondition : Obligations.FieldCommandsOutsideTheirPrecondition := by
  rintro s fd fs1 fs2 i (rfl | rfl | rfl) hpre
  · exact exec_unspecified_field (exec_montmul_of_not_precondition hpre)
  · exact exec_unspecified_field (exec_modadd_of_not_precondition hpre)
  · exact exec_unspecified_field (exec_modsub_of_not_precondition hpre)

/-! ### Point commands (logs 6, 7, 8) -/

section PointCommands
variable {s : State} {pd ps1 ps2 : PIdx}

theorem exec_padd_of_not_precondition (h : ¬ Precondition (.padd pd ps1 ps2) s) :
    exec (.padd pd ps1 ps2) s = .next (s.completePointUnspecified pd) := by
  refine congrArg _ (if_neg fun ⟨hp, hP, hQ⟩ => h ?_)
  obtain ⟨hprime, hodd⟩ := (oddPrime_iff _).mp hp
  exact ⟨hprime, hodd, hP, hQ⟩

theorem curveParams_of_oddPrime {a b p : Nat} (hp : oddPrime p = true) (ha : a < p) (hb : b < p) : CurveParams a b p :=
  have ⟨hprime, hodd⟩ := (oddPrime_iff p).mp hp
  ⟨hprime, hodd, ha, hb⟩

theorem exec_pdbl_of_not_precondition (h : ¬ Precondition (.pdbl pd ps1) s) :
    exec (.pdbl pd ps1) s = .next (s.completePointUnspecified pd) :=
  congrArg _ (if_neg fun ⟨hp, ha, hb, hP⟩ => h ⟨curveParams_of_oddPrime hp ha hb, hP⟩)

theorem scalarUnit_of_not_precondition
    (h : ¬ (CurveParams s.ca s.cb s.cp ∧ ((s.readPt ps1).reduced s.cp ∨ s.k = 0)))
    (mul : Nat → Nat → Nat → Point → Nat → Except ErrorKind Point) :
    s.scalarUnit mul pd ps1 = s.completePointUnspecified pd :=
  if_neg fun ⟨hp, ha, hb, hP⟩ => h ⟨curveParams_of_oddPrime hp ha hb, hP⟩

theorem exec_smulda_of_not_precondition (h : ¬ Precondition (.smulda pd ps1) s) :
    exec (.smulda pd ps1) s = .next (s.completePointUnspecified pd) := congrArg _ (scalarUnit_of_not_precondition h _)

theorem exec_smulml_of_not_precondition (h : ¬ Precondition (.smulml pd ps1) s) :
    exec (.smulml pd ps1) s = .next (s.completePointUnspecified pd) := congrArg _ (scalarUnit_of_not_precondition h _)

/-- With code 0 the destination holds three free values. -/
theorem completePointUnspecified_getPt (h : StatusOk s (s.completePointUnspecified pd)) :
    (s.completePointUnspecified pd).pt[pd] = s.freePointReg 1 := by
  have herr := h.err
  unfold State.completePointUnspecified at herr ⊢
  split at herr
  · simp
  · exact absurd herr (by simpa using code_ne_zero _)

theorem one_le_code (e : ErrorKind) : 1 ≤ e.code.toNat := by cases e <;> decide

theorem exec_unspecified_point {i : Instr} (he : exec i s = .next (s.completePointUnspecified pd)) :
    ∃ t, exec i s = .next t ∧
      (StatusOk s t ∧ (t.pt[pd]).x < 2 ^ s.geom.W ∧ (t.pt[pd]).y < 2 ^ s.geom.W ∧ Frame none (some pd) s t ∨
        ∃ c : BitVec 3, 1 ≤ c.toNat ∧ c.toNat ≤ 3 ∧ StatusError c s t ∧ Frame none none s t) := by
  refine ⟨_, he, ?_⟩
  obtain hok | ⟨e, hne, herr, hframe⟩ := completePointUnspecified_cases (s := s) pd
  · refine .inl ⟨hok, ?_, ?_, completePointUnspecified_frame pd⟩ <;> rw [completePointUnspecified_getPt hok]
    · exact freeField_lt s 2
    · exact freeField_lt s 3
  · exact .inr ⟨e.code, one_le_code e, code_le_three hne, herr, hframe⟩

end PointCommands

/-- PCHK completes with code 0 and writes ONC alone, inside its precondition or not (log 7). -/
theorem exec_pchk_completes (s : State) (ps1 : PIdx) : ∃ t, exec (.pchk ps1) s = .next t ∧ statusErr t.status = 0 ∧
    statusSticky t.status = statusSticky s.status ∧ Frame none none s t := by
  obtain ⟨c, hc, hexec⟩ := exists_exec_eq (.pchk ps1) s
  have herr := hc.err_eq_zero rfl s
  exact ⟨c s, hexec, herr, by simp [hc.sticky nofun s, herr], hc.frame s⟩

/-- Settles O39: the free completion is with code 0 and free fields, or with an arithmetic error and nothing written. -/
theorem pointCommandsOutsideTheirPrecondition : Obligations.PointCommandsOutsideTheirPrecondition := by
  refine fun s pd ps1 ps2 i hpre => ⟨?_, fun h => h ▸ exec_pchk_completes s ps1⟩
  rintro (rfl | rfl | rfl | rfl)
  · exact exec_unspecified_point (exec_padd_of_not_precondition hpre)
  · exact exec_unspecified_point (exec_pdbl_of_not_precondition hpre)
  · exact exec_unspecified_point (exec_smulda_of_not_precondition hpre)
  · exact exec_unspecified_point (exec_smulml_of_not_precondition hpre)

end Sys2Proof.Machine
end
